-- ==== Sys2Proof/Word.lean ====
section
/-! DEFINITION. The three widths of the block: a byte of OUT, a 32-bit data register or argument, a 40-bit
command word (spec/30_encoding.md R60, spec/00_scope.md R6, R7). Every value is unsigned. -/

namespace Sys2Proof

/-- A byte of OUT, a content byte, an opcode byte (R41, R60). -/
abbrev Byte := BitVec 8

/-- A 32-bit data register, argument or response word (R6 `REG_BITS`, R42, R60). -/
abbrev Word := BitVec 32

/-- One transfer of the command port: 40 bits, `op` in bits 39:32 and `arg` in bits 31:0 (R60). -/
abbrev Command := BitVec 40

end Sys2Proof
end

