-- ==== Sys2Proof/Syntax.lean ====
section
/-! DEFINITION. The 14 commands of the block, one constructor per row of spec/opcode_table.json
(spec/30_encoding.md R62), with the operand of the row's argument form (R61). -/

namespace Sys2Proof

/-- A command (R62). A form-B operand is the byte `arg[7:0]`, a form-W operand is `arg`, and a form-N operand is the
whole of `arg`, a register number (R61). -/
inductive Instr where
  /-- `NOP`, 0x00, form Z (R120). -/
  | nop
  /-- `CRC.INIT`, 0x01, form Z (R82). -/
  | crcInit
  /-- `CRC.BYTE`, 0x02, form B (R83). -/
  | crcByte (b : Byte)
  /-- `CRC.WORD`, 0x03, form W (R84). -/
  | crcWord (w : Word)
  /-- `CRC.EMIT`, 0x04, form Z (R85). -/
  | crcEmit
  /-- `CHUNK.LEN`, 0x10, form W (R91). -/
  | chunkLen (w : Word)
  /-- `CHUNK.TYPE`, 0x11, form W (R92). -/
  | chunkType (w : Word)
  /-- `CHUNK.DATA`, 0x12, form B (R94). -/
  | chunkData (b : Byte)
  /-- `CHUNK.DATA4`, 0x13, form W (R95). -/
  | chunkData4 (w : Word)
  /-- `CHUNK.END`, 0x14, form Z (R96). -/
  | chunkEnd
  /-- `SER.BYTE`, 0x20, form B (R111). -/
  | serByte (b : Byte)
  /-- `SER.BE32`, 0x21, form W (R112). -/
  | serBe32 (w : Word)
  /-- `RDREG`, 0xF0, form N (R121). -/
  | rdreg (n : Word)
  /-- `CLEAR`, 0xFF, form Z (R122). -/
  | clear
  deriving DecidableEq, Repr

end Sys2Proof
end

