-- ==== Sys2Proof/Config.lean ====
section
/-! DEFINITION. The parameters of spec/00_scope.md R6, fixed or OPEN, and `RESET_CUT`
(spec/70_reset_and_hazards.md R161), which is OPEN as well. An OPEN parameter has no body: no proof can lean on a value
of it. -/

namespace Sys2Proof.Config

/-- `CRC_POLY_REFLECTED` (R6, R80). -/
def crcPolyReflected : Word := 0xEDB88320#32

/-- `CRC_INIT` (R6, R80). -/
def crcInit : Word := 0xFFFFFFFF#32

/-- `CRC_XOROUT` (R6, R80). -/
def crcXorOut : Word := 0xFFFFFFFF#32

/-- `MAX_CHUNK_LEN` (R6, R91). -/
def maxChunkLen : Word := 0x7FFFFFFF#32

/-- `TYPE_CHECK` is on: every type byte must be an ASCII letter (R6, R93). -/
def typeCheck : Bool := true

/-- `NUM_REGS_READABLE`: register numbers 0 to 7 (R6, R34). -/
def numRegsReadable : Word := 8#32

/-- `OUT_DEPTH` (R6, OPEN): depth of the output byte buffer; it decides only when the port stalls (R39, R45). Log
entry 3. -/
opaque outDepth : Nat

/-- `RESP_DEPTH` (R6, OPEN): depth of the response word buffer; it decides only when the port stalls (R39, R45). Log
entry 3. -/
opaque respDepth : Nat

/-- `RESET_CUT` (R161, spec/93_implementation_defined.md list A: "any value"): how many events of a command
reached the host when `rst` is asserted while the command is being delivered. A free value, one for each position
in the host's command sequence; nothing constrains it. Log entry 2. -/
opaque resetCut : Nat → Nat

end Sys2Proof.Config
end

