-- ==== Sys2Proof/WellFormed.lean ====
section
/-! DEFINITION. Well-formedness of a command as a term (spec/30_encoding.md R65). A term of `Instr` has a defined
opcode and, but for form N, no room for a reserved argument bit, so the one check left is R61's and R64's "`n` must be
0 to 7". Well-formedness of a 40-bit word is `decode` (Sys2Proof/Decode.lean). -/

namespace Sys2Proof

/-- The command's own part of `WellFormed` (R65): it depends on the command alone, never on block state. -/
def Instr.wellFormed : Instr → Bool
  | .nop => true
  | .crcInit => true
  | .crcByte _ => true
  | .crcWord _ => true
  | .crcEmit => true
  | .chunkLen _ => true
  | .chunkType _ => true
  | .chunkData _ => true
  | .chunkData4 _ => true
  | .chunkEnd => true
  | .serByte _ => true
  | .serBe32 _ => true
  | .rdreg n => decide (n < Config.numRegsReadable)
  | .clear => true

end Sys2Proof
end

