-- ==== Sys2Proof/Decode.lean ====
section
/-! DEFINITION. From a 40-bit command word to a command, and back (spec/30_encoding.md R60 to R66,
spec/60_exceptions.md R131, R133). Decoding is total on every word and reads no block state; a word that is not
well-formed is rejected by the name of the error it raises. -/

namespace Sys2Proof

/-- The argument forms of R61. -/
inductive Form where
  | Z | B | W | N
  deriving DecidableEq, Repr

/-- Why a word is not a well-formed command (R63, R64, R133). -/
inductive DecodeError where
  /-- `op` is not a defined opcode (R63). -/
  | illegalOp
  /-- A reserved argument bit is 1, or RDREG `n >= 8` (R64). -/
  | reservedArg
  deriving DecidableEq, Repr

/-- `cmd[39:32]` (R60). -/
def cmdOp (cmd : Command) : Byte := cmd.extractLsb' 32 8

/-- `cmd[31:0]` (R60). -/
def cmdArg (cmd : Command) : Word := cmd.extractLsb' 0 32

/-- The word `{op, arg}` (R60). -/
def mkCommand (op : Byte) (arg : Word) : Command := op ++ arg

/-- The form-B operand `arg[7:0]` (R61). -/
def argByte (arg : Word) : Byte := arg.extractLsb' 0 8

/-- `ReservedZero` of R65, for an opcode of form `f`. -/
def reservedZero (f : Form) (arg : Word) : Bool :=
  match f with
  | .Z => arg == 0#32
  | .B => arg.extractLsb' 8 24 == 0#24
  | .W => true
  | .N => decide (arg < Config.numRegsReadable)

/-- One row of the opcode map (R62): the opcode byte, its form, and the command it builds from `arg`. -/
structure OpRow where
  op : Byte
  form : Form
  build : Word → Instr

/-- The opcode map (R62). -/
def opTable : List OpRow :=
  [ ⟨0x00#8, .Z, fun _ => .nop⟩,
    ⟨0x01#8, .Z, fun _ => .crcInit⟩,
    ⟨0x02#8, .B, fun a => .crcByte (argByte a)⟩,
    ⟨0x03#8, .W, fun a => .crcWord a⟩,
    ⟨0x04#8, .Z, fun _ => .crcEmit⟩,
    ⟨0x10#8, .W, fun a => .chunkLen a⟩,
    ⟨0x11#8, .W, fun a => .chunkType a⟩,
    ⟨0x12#8, .B, fun a => .chunkData (argByte a)⟩,
    ⟨0x13#8, .W, fun a => .chunkData4 a⟩,
    ⟨0x14#8, .Z, fun _ => .chunkEnd⟩,
    ⟨0x20#8, .B, fun a => .serByte (argByte a)⟩,
    ⟨0x21#8, .W, fun a => .serBe32 a⟩,
    ⟨0xF0#8, .N, fun a => .rdreg a⟩,
    ⟨0xFF#8, .Z, fun _ => .clear⟩ ]

/-- The row of an opcode byte; none where the byte is undefined (R63). -/
def rowOf (op : Byte) : Option OpRow := opTable.find? (fun r => r.op == op)

/-- `Defined(op)` of R65. -/
def definedOp (op : Byte) : Bool := (rowOf op).isSome

/-- Decode one command word (R65, R131), rejecting ILLEGAL_OP before RESERVED_ARG (R133, R141). -/
def decode (cmd : Command) : Except DecodeError Instr :=
  match rowOf (cmdOp cmd) with
  | none => .error .illegalOp
  | some r =>
    if reservedZero r.form (cmdArg cmd) then .ok (r.build (cmdArg cmd)) else .error .reservedArg

/-- `WellFormed(cmd)` of R65, for a word. -/
def wellFormedWord (cmd : Command) : Bool :=
  match decode cmd with
  | .ok _ => true
  | .error _ => false

/-! The encoder, written from the same map (R61, R62). -/

/-- The opcode byte of a command (R62). -/
def Instr.op : Instr → Byte
  | .nop => 0x00#8
  | .crcInit => 0x01#8
  | .crcByte _ => 0x02#8
  | .crcWord _ => 0x03#8
  | .crcEmit => 0x04#8
  | .chunkLen _ => 0x10#8
  | .chunkType _ => 0x11#8
  | .chunkData _ => 0x12#8
  | .chunkData4 _ => 0x13#8
  | .chunkEnd => 0x14#8
  | .serByte _ => 0x20#8
  | .serBe32 _ => 0x21#8
  | .rdreg _ => 0xF0#8
  | .clear => 0xFF#8

/-- The argument word of a command: reserved bits 0, no operand extended by sign, scaled or shifted (R61). -/
def Instr.arg : Instr → Word
  | .nop => 0#32
  | .crcInit => 0#32
  | .crcByte b => b.setWidth 32
  | .crcWord w => w
  | .crcEmit => 0#32
  | .chunkLen w => w
  | .chunkType w => w
  | .chunkData b => b.setWidth 32
  | .chunkData4 w => w
  | .chunkEnd => 0#32
  | .serByte b => b.setWidth 32
  | .serBe32 w => w
  | .rdreg n => n
  | .clear => 0#32

/-- The 40-bit word of a command (R60). -/
def encode (i : Instr) : Command := mkCommand i.op i.arg

/-- The command this decoder reads from `w`, the `nbits` low bits of one 40-bit word numbered as
spec/opcode_table.json numbers them; the bits above `nbits` are 0. One command is one word delivered whole (R60), so
no byte order enters. -/
def decodeTableWord (nbits w : Nat) : Option Instr :=
  match decode (BitVec.ofNat 40 (w % 2 ^ nbits)) with
  | .ok i => some i
  | .error _ => none

end Sys2Proof
end

