-- ==== Sys2Proof/Machine/State.lean ====
section
/-! DEFINITION. The state of the block: the ten registers of spec/10_state.md R20, the trace (R36), the position in
the host's command sequence (R31), how much of OUT and RESP the host has drained, and the host's moves at the ports
that have not happened yet (spec/00_scope.md R12).
Plain data throughout. The state after reset (R37, spec/70_reset_and_hazards.md R160). -/

namespace Sys2Proof.Machine

/-- One event of the observable trace (R36). -/
inductive Event where
  /-- One byte appended to OUT (R41). -/
  | out (b : Byte)
  /-- One 32-bit word appended to RESP (R42). -/
  | resp (w : Word)
  deriving DecidableEq, Repr

/-- One move of the world outside the block, in the order the moves happen (R12, R45, R160, R161). -/
inductive HostMove where
  /-- A 40-bit command word is transferred on the command port (R40, R60). -/
  | offer (cmd : Command)
  /-- The host takes the next byte of OUT, waiting for it where there is none (R40, R165 (b)). -/
  | takeOut
  /-- The host takes the next word of RESP, waiting for it where there is none (R40, R136, R165 (b), (d)). -/
  | takeResp
  /-- `rst` is asserted between two commands (R160, R161). -/
  | rst
  /-- `rst` is asserted while the bytes of this command are being delivered (R161, `RESET_CUT`). Log entry 2. -/
  | rstDuring (cmd : Command)
  deriving DecidableEq, Repr

/-- The error causes of spec/60_exceptions.md R130, codes 1 to 9 in order. -/
inductive ErrCode where
  | illegalOp | reservedArg | notIdle | notInChunk | noLength | badLength | badType | overrun | underrun
  deriving DecidableEq, Repr

/-- The block and its ports. -/
structure State where
  /-- `crc` (32): the raw CRC-32 register, before the final XOR (R21). -/
  crc : Word
  /-- `len` (32): declared content length of the next or current chunk (R22). -/
  len : Word
  /-- `lv` (1): a CHUNK.LEN has been accepted since the last CHUNK.TYPE (R23). -/
  lv : Bool
  /-- `inchunk` (1): chunk mode or idle mode (R24). -/
  inchunk : Bool
  /-- `rem` (32): content bytes still due in the current chunk (R25). -/
  rem : Word
  /-- `type` (32): type tag of the current or last chunk, first tag byte in bits 31:24 (R26). -/
  type : Word
  /-- `ecode` (4): 0 means no error is recorded (R27). -/
  ecode : BitVec 4
  /-- `eop` (8): opcode byte of the command that raised the error (R28). -/
  eop : Byte
  /-- `earg` (32): argument of the command that raised the error (R29). -/
  earg : Word
  /-- `outcnt` (32): bytes emitted to OUT, modulo 2^32 (R30). -/
  outcnt : Word
  /-- The events produced, oldest first (R36, R43). -/
  trace : List Event
  /-- The index of the next command in the host's command sequence (R31). -/
  pos : Nat
  /-- How many bytes of OUT the host has taken (R12, R165 (b)). -/
  outTaken : Nat
  /-- How many words of RESP the host has taken (R12, R165 (b)). -/
  respTaken : Nat
  /-- The moves at the ports still to happen, first one first: the input of the run (R39, R12). -/
  port : List HostMove
  deriving DecidableEq, Repr

/-- Faults that would stop the machine: none. The spec has no event that stops the block; every error is recorded in
`ecode`, `eop` and `earg` and the block goes on (R135, R136), so every step answers a next state. -/
inductive Fault where
  deriving DecidableEq, Repr

/-- Refusals. -/
inductive Refusal where
  /-- A command without a meaning, by its mnemonic; raised by a refused arm of `exec` only, and no arm is refused in
  this model. Safe: it stops where the hardware goes on. -/
  | notModelled (mnemonic : String)
  deriving DecidableEq, Repr

/-- The block right after reset (R37, R160): idle mode, no error, the CRC register initialized, nothing produced and
nothing offered yet. -/
def State.reset : State where
  crc := 0xFFFFFFFF#32
  len := 0#32
  lv := false
  inchunk := false
  rem := 0#32
  type := 0#32
  ecode := 0#4
  eop := 0#8
  earg := 0#32
  outcnt := 0#32
  trace := []
  pos := 0
  outTaken := 0
  respTaken := 0
  port := []

end Sys2Proof.Machine
end

