-- ==== Sys2Proof/Machine/Flags.lean ====
section
/-! DEFINITION. Everything computed from the registers and not stored: the status word (spec/10_state.md R33), the
error line (R38), the final CRC (R21), and the two output streams as projections of the trace (R36, R43). -/

namespace Sys2Proof.Machine

/-- The output line `err_o` = STATUS.ERR, a level (R38, R137). -/
def errO (s : State) : Bool := s.ecode != 0#4

/-- `STATUS = {16'b0, eop, ecode, 1'b0, (ecode != 0), lv, inchunk}` (R33). -/
def status (s : State) : Word :=
  0#16 ++ s.eop ++ s.ecode ++ 0#1 ++ BitVec.ofBool (errO s) ++ BitVec.ofBool s.lv ++ BitVec.ofBool s.inchunk

/-- The final CRC of a raw CRC value, `crc XOR 0xFFFFFFFF` (R11, R21). -/
def crcFinal (crc : Word) : Word := crc ^^^ Config.crcXorOut

/-- The bytes of OUT in a list of events, in order (R36). -/
def outBytes : List Event → List Byte
  | [] => []
  | .out b :: es => b :: outBytes es
  | .resp _ :: es => outBytes es

/-- The words of RESP in a list of events, in order (R36). -/
def respWords : List Event → List Word
  | [] => []
  | .out _ :: es => respWords es
  | .resp w :: es => w :: respWords es

/-- OUT: the bytes the block has emitted (R36, R41). -/
def State.out (s : State) : List Byte := outBytes s.trace

/-- RESP: the words the block has responded (R36, R42). -/
def State.resp (s : State) : List Word := respWords s.trace

end Sys2Proof.Machine
end

