-- ==== Sys2Proof/Machine/Operands.lean ====
section
/-! DEFINITION. The operand forms a meaning reads (spec/30_encoding.md R61): a word as four big-endian bytes
(spec/20_memory.md R44, spec/43_serializer.md R110), a register number (spec/10_state.md R34), a type tag
(spec/42_chunk.md R93). The form-B operand is taken apart in Sys2Proof/Decode.lean. -/

namespace Sys2Proof.Machine

/-- `BE32(w)`: `w[31:24], w[23:16], w[15:8], w[7:0]`, byte 0 first (R61, R110). -/
def be32 (w : Word) : List Byte :=
  [w.extractLsb' 24 8, w.extractLsb' 16 8, w.extractLsb' 8 8, w.extractLsb' 0 8]

/-- The word that carries four bytes, first byte in bits 31:24 (R44, R61). -/
def ofBytes (b0 b1 b2 b3 : Byte) : Word := b0 ++ b1 ++ b2 ++ b3

/-- `IsLetter(x)`: 'A' to 'Z' or 'a' to 'z' (R93). -/
def isLetter (x : Byte) : Bool :=
  (decide (0x41#8 ≤ x) && decide (x ≤ 0x5A#8)) || (decide (0x61#8 ≤ x) && decide (x ≤ 0x7A#8))

/-- The tag passes the letters-only check, where the check is on (R92, R93, R6 `TYPE_CHECK`). -/
def validTag (w : Word) : Bool := !Config.typeCheck || (be32 w).all isLetter

/-- The value of register number `n` (R34); none for a reserved number. -/
def readReg (n : Word) (s : State) : Option Word :=
  if n = 0#32 then some (status s)
  else if n = 1#32 then some s.crc
  else if n = 2#32 then some (crcFinal s.crc)
  else if n = 3#32 then some s.len
  else if n = 4#32 then some s.rem
  else if n = 5#32 then some s.type
  else if n = 6#32 then some s.outcnt
  else if n = 7#32 then some s.earg
  else none

end Sys2Proof.Machine
end

