-- ==== Sys2Proof/Machine/Ops.lean ====
section
/-! DEFINITION. The operations the meanings share: the output primitives (spec/20_memory.md R41, R42,
spec/43_serializer.md R110), the CRC function (spec/41_crc.md R80), error entry and the return from the error state
(spec/60_exceptions.md R135, R138), and the prologue every command runs through (R132 to R134, R141). -/

namespace Sys2Proof.Machine

/-- What a meaning answers. -/
abbrev Result := Host.Outcome State Fault Refusal

/-! Streams -/

/-- `Emit(b)`: append `Out(b)` to the trace and add 1 to `outcnt` modulo 2^32 (R41, R30). -/
def emit (b : Byte) (s : State) : State :=
  { s with trace := s.trace ++ [.out b], outcnt := s.outcnt + 1#32 }

/-- `Emit` each byte in order (R41). -/
def emitBytes (bs : List Byte) (s : State) : State := bs.foldl (fun t b => emit b t) s

/-- `EmitBE32(w)`: four bytes, most significant first (R110). -/
def emitBe32 (w : Word) (s : State) : State := emitBytes (be32 w) s

/-- `Respond(w)`: append `Resp(w)` to the trace (R42). -/
def respond (w : Word) (s : State) : State := { s with trace := s.trace ++ [.resp w] }

/-! CRC-32 -/

/-- One turn of the loop of R80: shift right, and XOR the polynomial where bit 0 was 1. -/
def crcBit (c : Word) : Word :=
  if c.getLsbD 0 then (c >>> 1) ^^^ Config.crcPolyReflected else c >>> 1

/-- `n` turns of the loop of R80. -/
def crcBits : Nat → Word → Word
  | 0, c => c
  | n + 1, c => crcBits n (crcBit c)

/-- `CrcByte(c, b)` (R80). -/
def crcByte (c : Word) (b : Byte) : Word := crcBits 8 (c ^^^ b.setWidth 32)

/-- `Fold(CrcByte, c, s)`: absorb a byte sequence in order (R86). -/
def crcFold (c : Word) (bs : List Byte) : Word := bs.foldl crcByte c

/-- `Crc32(s)` of a byte sequence (R86). -/
def crc32 (bs : List Byte) : Word := crcFinal (crcFold Config.crcInit bs)

/-- Absorb a byte sequence into `crc`, in order (R83, R84). -/
def absorb (bs : List Byte) (s : State) : State := { s with crc := crcFold s.crc bs }

/-- Content bytes: each is emitted and then absorbed, in order (R94, R95). -/
def sendContent (bs : List Byte) (s : State) : State :=
  bs.foldl (fun t b => absorb [b] (emit b t)) s

/-! Errors -/

/-- The 4-bit code of a cause (R130). -/
def ErrCode.bits : ErrCode → BitVec 4
  | .illegalOp => 1#4
  | .reservedArg => 2#4
  | .notIdle => 3#4
  | .notInChunk => 4#4
  | .noLength => 5#4
  | .badLength => 6#4
  | .badType => 7#4
  | .overrun => 8#4
  | .underrun => 9#4

/-- Error entry, `raise Err(code)` by the command word `cmd`: the three error fields and nothing else (R135). -/
def raiseErr (e : ErrCode) (cmd : Command) (s : State) : State :=
  { s with ecode := e.bits, eop := cmdOp cmd, earg := cmdArg cmd }

/-- The return from the error state, and the effect of CLEAR and of `rst` on the registers: every register to its
reset value, the trace untouched (R37, R122, R138, R160, R162). -/
def clearRegs (s : State) : State :=
  { s with
    crc := Config.crcInit, len := 0#32, lv := false, inchunk := false, rem := 0#32, type := 0#32,
    ecode := 0#4, eop := 0#8, earg := 0#32, outcnt := 0#32 }

/-- The cause a rejected word raises in normal state (R133). -/
def causeOf : DecodeError → ErrCode
  | .illegalOp => .illegalOp
  | .reservedArg => .reservedArg

/-! The prologue of a command -/

/-- The modes that admit a command: in idle mode, in chunk mode (the two middle columns of R134). -/
def admittedIn : Instr → Bool × Bool
  | .nop => (true, true)
  | .crcInit => (true, false)
  | .crcByte _ => (true, false)
  | .crcWord _ => (true, false)
  | .crcEmit => (true, false)
  | .chunkLen _ => (true, false)
  | .chunkType _ => (true, false)
  | .chunkData _ => (false, true)
  | .chunkData4 _ => (false, true)
  | .chunkEnd => (false, true)
  | .serByte _ => (true, false)
  | .serBe32 _ => (true, false)
  | .rdreg _ => (true, true)
  | .clear => (true, true)

/-- The mode check (R134): NOT_IDLE in chunk mode, NOT_IN_CHUNK in idle mode, none where the command is admitted. -/
def modeError (i : Instr) (inchunk : Bool) : Option ErrCode :=
  match inchunk, admittedIn i with
  | false, (true, _) => none
  | false, (false, _) => some .notInChunk
  | true, (_, true) => none
  | true, (_, false) => some .notIdle

/-- The first error of a command in normal state, in the order of R141: RESERVED_ARG, the mode check, then the
command's own checks, whose result is `own`. -/
def firstError (i : Instr) (own : Option ErrCode) (s : State) : Option ErrCode :=
  if i.wellFormed then (modeError i s.inchunk).or own else some .reservedArg

/-- NOP, RDREG and CLEAR: the commands performed in the error state (R132). -/
def isControl : Instr → Bool
  | .nop => true
  | .crcInit => false
  | .crcByte _ => false
  | .crcWord _ => false
  | .crcEmit => false
  | .chunkLen _ => false
  | .chunkType _ => false
  | .chunkData _ => false
  | .chunkData4 _ => false
  | .chunkEnd => false
  | .serByte _ => false
  | .serBe32 _ => false
  | .rdreg _ => true
  | .clear => true

/-- Run one command: the error-state filter (R132), then the checks in order (R133, R134, R141), then all its effects
or the error entry alone (R45, R135). `own` is the result of the command's own checks and `done` the state its effects
lead to, both read off the state before the command. -/
def perform (i : Instr) (own : Option ErrCode) (done s : State) : Result :=
  if s.ecode = 0#4 then
    match firstError i own s with
    | some e => .next (raiseErr e (encode i) s)
    | none => .next done
  else if isControl i && i.wellFormed then .next done
  else .next s

end Sys2Proof.Machine
end

