-- ==== Sys2Proof/Machine/Chunk.lean ====
section
/-! DEFINITION. The chunk encoder's commands (spec/42_chunk.md R91 to R96): CHUNK.LEN and CHUNK.TYPE in idle mode,
CHUNK.DATA, CHUNK.DATA4 and CHUNK.END in chunk mode (R134). The layout of a chunk (R90). -/

namespace Sys2Proof.Machine

/-- CHUNK.LEN's own check (R91). -/
def chunkLenError (w : Word) : Option ErrCode :=
  if w > Config.maxChunkLen then some .badLength else none

/-- CHUNK.LEN (R91): `len <- w; lv <- 1`. -/
def execChunkLen (w : Word) (s : State) : Result :=
  perform (.chunkLen w) (chunkLenError w) { s with len := w, lv := true } s

/-- CHUNK.TYPE's own checks, NO_LENGTH before BAD_TYPE (R92, R141). -/
def chunkTypeError (w : Word) (s : State) : Option ErrCode :=
  if s.lv = false then some .noLength else if validTag w = false then some .badType else none

/-- CHUNK.TYPE's effects (R92): the length field and the tag go to OUT, `crc` restarts over the tag, the block enters
chunk mode with the whole declared length due. -/
def startChunk (w : Word) (s : State) : State :=
  let t := emitBe32 w (emitBe32 s.len s)
  let u := absorb (be32 w) { t with crc := Config.crcInit }
  { u with type := w, rem := s.len, lv := false, inchunk := true }

/-- CHUNK.TYPE (R92). -/
def execChunkType (w : Word) (s : State) : Result :=
  perform (.chunkType w) (chunkTypeError w s) (startChunk w s) s

/-- The own check of a command that sends `k` content bytes: `rem` must cover them all (R94, R95). -/
def contentError (k : Word) (s : State) : Option ErrCode :=
  if s.rem < k then some .overrun else none

/-- CHUNK.DATA (R94): emit and absorb one byte, `rem <- rem - 1`. -/
def execChunkData (b : Byte) (s : State) : Result :=
  perform (.chunkData b) (contentError 1#32 s) { sendContent [b] s with rem := s.rem - 1#32 } s

/-- CHUNK.DATA4 (R95): emit and absorb four bytes, byte 0 first, `rem <- rem - 4`. -/
def execChunkData4 (w : Word) (s : State) : Result :=
  perform (.chunkData4 w) (contentError 4#32 s) { sendContent (be32 w) s with rem := s.rem - 4#32 } s

/-- CHUNK.END's own check (R96). -/
def chunkEndError (s : State) : Option ErrCode :=
  if s.rem ≠ 0#32 then some .underrun else none

/-- CHUNK.END (R96): `EmitBE32(crc XOR 0xFFFFFFFF)`, leave chunk mode; `crc` keeps the raw value. -/
def execChunkEnd (s : State) : Result :=
  perform .chunkEnd (chunkEndError s) { emitBe32 (crcFinal s.crc) s with inchunk := false } s

/-- The bytes of a chunk with tag `t` and content `c`: `BE32(L) ++ t ++ c ++ BE32(Crc32(t ++ c))` (R90). -/
def chunkLayout (t : Word) (c : List Byte) : List Byte :=
  be32 (BitVec.ofNat 32 c.length) ++ be32 t ++ c ++ be32 (crc32 (be32 t ++ c))

end Sys2Proof.Machine
end

