-- ==== Sys2Proof/Machine/Control.lean ====
section
/-! DEFINITION. The control commands (spec/44_control.md R120 to R122), admitted in both modes and performed in the
error state as well (R132, R134). -/

namespace Sys2Proof.Machine

/-- NOP (R120): no effect. -/
def execNop (s : State) : Result :=
  perform .nop none s s

/-- RDREG's effect (R121): respond with register `n`. A reserved number has no value to respond with; `perform` has
turned it away before (R64, R136). -/
def answerReg (n : Word) (s : State) : State :=
  match readReg n s with
  | some v => respond v s
  | none => s

/-- RDREG (R121). -/
def execRdreg (n : Word) (s : State) : Result :=
  perform (.rdreg n) none (answerReg n s) s

/-- CLEAR (R122): every register to its reset value; the return from the error state (R138). -/
def execClear (s : State) : Result :=
  perform .clear none (clearRegs s) s

end Sys2Proof.Machine
end

