-- ==== Sys2Proof/Machine/Crc.lean ====
section
/-! DEFINITION. The CRC-32 generator's commands (spec/41_crc.md R82 to R85), admitted in idle mode only (R134). -/

namespace Sys2Proof.Machine

/-- CRC.INIT (R82): `crc <- 0xFFFFFFFF`. -/
def execCrcInit (s : State) : Result :=
  perform .crcInit none { s with crc := Config.crcInit } s

/-- CRC.BYTE (R83): `crc <- CrcByte(crc, b)`. -/
def execCrcByte (b : Byte) (s : State) : Result :=
  perform (.crcByte b) none (absorb [b] s) s

/-- CRC.WORD (R84): absorb the four bytes of `w`, byte 0 first. -/
def execCrcWord (w : Word) (s : State) : Result :=
  perform (.crcWord w) none (absorb (be32 w) s) s

/-- CRC.EMIT (R85): `EmitBE32(crc XOR 0xFFFFFFFF)`, `crc` unchanged. -/
def execCrcEmit (s : State) : Result :=
  perform .crcEmit none (emitBe32 (crcFinal s.crc) s) s

end Sys2Proof.Machine
end

