-- ==== Sys2Proof/Machine/Serializer.lean ====
section
/-! DEFINITION. The big-endian serializer's commands (spec/43_serializer.md R111, R112), admitted in idle mode only
(R134). -/

namespace Sys2Proof.Machine

/-- SER.BYTE (R111): `Emit(b)`. -/
def execSerByte (b : Byte) (s : State) : Result :=
  perform (.serByte b) none (emit b s) s

/-- SER.BE32 (R112): `EmitBE32(w)`. -/
def execSerBe32 (w : Word) (s : State) : Result :=
  perform (.serBe32 w) none (emitBe32 w s) s

end Sys2Proof.Machine
end

