-- ==== Sys2Proof/Machine/Dispatch.lean ====
section
/-! DEFINITION. One arm per command of spec/30_encoding.md R62. -/

namespace Sys2Proof.Machine

def exec (i : Instr) (s : State) : Host.Outcome State Fault Refusal :=
  match i with
  | .nop => Sys2Proof.Machine.execNop s
  | .crcInit => Sys2Proof.Machine.execCrcInit s
  | .crcByte b => Sys2Proof.Machine.execCrcByte b s
  | .crcWord w => Sys2Proof.Machine.execCrcWord w s
  | .crcEmit => Sys2Proof.Machine.execCrcEmit s
  | .chunkLen w => Sys2Proof.Machine.execChunkLen w s
  | .chunkType w => Sys2Proof.Machine.execChunkType w s
  | .chunkData b => Sys2Proof.Machine.execChunkData b s
  | .chunkData4 w => Sys2Proof.Machine.execChunkData4 w s
  | .chunkEnd => Sys2Proof.Machine.execChunkEnd s
  | .serByte b => Sys2Proof.Machine.execSerByte b s
  | .serBe32 w => Sys2Proof.Machine.execSerBe32 w s
  | .rdreg n => Sys2Proof.Machine.execRdreg n s
  | .clear => Sys2Proof.Machine.execClear s

end Sys2Proof.Machine
end

