-- ==== Sys2Proof/Machine/Port.lean ====
section
/-! DEFINITION. The three ports and the reset input: when the command port stalls, and what one move of the host makes
the block do (spec/00_scope.md R12, spec/20_memory.md R40, R45, spec/60_exceptions.md R131 to R133, R136, R149,
spec/70_reset_and_hazards.md R160 to R162, R165). -/

namespace Sys2Proof.Machine

/-! Room in OUT and RESP -/

/-- The bytes of OUT the host has not taken yet. -/
def State.outWaiting (s : State) : Nat := s.out.length - s.outTaken

/-- The words of RESP the host has not taken yet. -/
def State.respWaiting (s : State) : Nat := s.resp.length - s.respTaken

/-- A buffer of this depth has no room (R45); one in which nothing waits has room. Log entry 3. -/
def noRoom (depth waiting : Nat) : Bool := waiting != 0 && decide (depth ≤ waiting)

/-- The command port stalls: OUT or RESP has no room (R45, R165 (b)). Log entry 3. -/
def portStalled (s : State) : Bool :=
  noRoom Config.outDepth s.outWaiting || noRoom Config.respDepth s.respWaiting

/-- `s` where the host has drained both streams, if the command port is stalled in it. -/
def makeRoom (s : State) : State :=
  if portStalled s then { s with outTaken := s.out.length, respTaken := s.resp.length } else s

/-! Taking a word -/

/-- A word that is not a well-formed command: the decode error is raised in normal state and the word discarded in the
error state (R132, R133, R136). -/
def takeIllFormed (e : DecodeError) (cmd : Command) (s : State) : State :=
  if s.ecode = 0#4 then raiseErr (causeOf e) cmd s else s

/-- The block takes one word from the port: the host's sequence advances by exactly 1, whether the command is
performed, raises an error or is discarded (R31, R132). -/
def takeCommand (cmd : Command) (s : State) : Result :=
  match decode cmd with
  | .ok i => exec i { s with pos := s.pos + 1 }
  | .error e => .next (takeIllFormed e cmd { s with pos := s.pos + 1 })

/-- `rst` while a command's bytes are being delivered (R161): of the events of that command the host has the first
`Config.resetCut`, a free number, and every register is at its reset value. `before` is the trace before the command
and `t` the state the whole command leads to. Log entry 2. -/
def cutReset (cut : Nat) (before : List Event) (t : State) : State :=
  clearRegs { t with trace := before ++ (t.trace.drop before.length).take cut }

/-- A command that `rst` interrupts (R161). -/
def takeCommandCut (cmd : Command) (s : State) : Result :=
  match takeCommand cmd s with
  | .next t => .next (cutReset (Config.resetCut s.pos) s.trace t)
  | .fault r => .fault r
  | .refused r => .refused r

/-- A word on the command port: it waits there while the port is stalled (R45), and is taken otherwise. `s` is the
state with the word still on the port, `rest` the moves behind it. -/
def offerStep (cmd : Command) (rest : List HostMove) (s : State) : Result :=
  if portStalled s then .next s else takeCommand cmd { s with port := rest }

/-- The host takes one byte of OUT, or waits for one (R40, R165 (b)). -/
def takeOutStep (rest : List HostMove) (s : State) : Result :=
  if s.outWaiting = 0 then .next s else .next { s with port := rest, outTaken := s.outTaken + 1 }

/-- The host takes one word of RESP, or waits for one: where none ever comes it waits for ever (R136, R165 (d)). -/
def takeRespStep (rest : List HostMove) (s : State) : Result :=
  if s.respWaiting = 0 then .next s else .next { s with port := rest, respTaken := s.respTaken + 1 }

/-- `rst` while a command is being delivered (R161). A word the stalled port has not taken is not being delivered: the
reset is then one between commands (R160). -/
def rstDuringStep (cmd : Command) (rest : List HostMove) (s : State) : Result :=
  if portStalled s then .next (clearRegs { s with port := rest }) else takeCommandCut cmd { s with port := rest }

/-- One step: the first move that has not happened yet happens, or waits. With no move at the ports the block waits and
keeps every register (R149, R160). -/
def hostStep (s : State) : Result :=
  match s.port with
  | [] => .next s
  | .offer cmd :: rest => offerStep cmd rest s
  | .takeOut :: rest => takeOutStep rest s
  | .takeResp :: rest => takeRespStep rest s
  | .rst :: rest => .next (clearRegs { s with port := rest })
  | .rstDuring cmd :: rest => rstDuringStep cmd rest s

/-- The host's move that transfers `w`, the `nbits` low bits of a command word, on the command port (R60). -/
def offerWord (nbits w : Nat) : HostMove := .offer (BitVec.ofNat 40 (w % 2 ^ nbits))

end Sys2Proof.Machine
end

