-- ==== Sys2Proof/Machine/Step.lean ====
section
/-! DEFINITION. One step of the machine, and how a command word comes to be the next one taken. -/

namespace Sys2Proof.Machine

/-- One step: one move at the ports (spec/20_memory.md R45: "a step is one whole command"). -/
def step (s : State) : Host.Outcome State Fault Refusal := hostStep s

/-- `s` with the host's very next move being the transfer of this word. The block fetches nothing (R54): the word
stands at the head of the moves to come, and the moves that stood there follow it. Where the command port is stalled,
the host has drained both streams first. Log entry 1. -/
def State.withFetchWord (s : State) (nbits w : Nat) : State :=
  { makeRoom s with port := offerWord nbits w :: s.port }

end Sys2Proof.Machine
end

