-- ==== Sys2Proof/Machine/Pseudo.lean ====
section
/-! DEFINITION. The pseudo-instructions of spec/30_encoding.md R68 as the command lists they expand to. The block never
sees a pseudo-instruction. -/

namespace Sys2Proof.Machine

/-- Bytes taken four at a time from the front while at least 4 remain, then one by one (R68). -/
def byteGroups (four : Word → Instr) (one : Byte → Instr) : List Byte → List Instr
  | a :: b :: c :: d :: rest => four (ofBytes a b c d) :: byteGroups four one rest
  | rest => rest.map one

/-- `CHUNK.BEGIN <len>, <tag>` (R68). -/
def pseudoChunkBegin (len tag : Word) : List Instr := [.chunkLen len, .chunkType tag]

/-- `CHUNK.BYTES b0, ..., bk-1` (R68). -/
def pseudoChunkBytes (bs : List Byte) : List Instr := byteGroups .chunkData4 .chunkData bs

/-- `CHUNK.EMPTY <tag>` (R68). -/
def pseudoChunkEmpty (tag : Word) : List Instr := [.chunkLen 0#32, .chunkType tag, .chunkEnd]

/-- `CRC.BYTES b0, ..., bk-1` (R68). -/
def pseudoCrcBytes (bs : List Byte) : List Instr := byteGroups .crcWord .crcByte bs

/-- `SER.BYTES b0, ..., bk-1` (R68). -/
def pseudoSerBytes (bs : List Byte) : List Instr := byteGroups .serBe32 .serByte bs

/-- `SER.SIGNATURE` (R68). -/
def pseudoSerSignature : List Instr := [.serBe32 0x89504E47#32, .serBe32 0x0D0A1A0A#32]

end Sys2Proof.Machine
end

