-- ==== Sys2Proof/Machine/Assembler.lean ====
section
/-! DEFINITION. The assembler's line syntax (spec/30_encoding.md R67) with the pseudo-instructions of R68: one line of
text, given as its characters, to the commands it stands for. It is no part of the block, which sees words only.
The lexical points R67 leaves open are in log entry 6. -/

namespace Sys2Proof.Machine

/-- A token of a line. -/
inductive AsmToken where
  /-- A run of characters that is no blank, comma, quote or comment. -/
  | bare (cs : List Char)
  /-- A literal in single quotes. -/
  | single (cs : List Char)
  /-- A literal in double quotes. -/
  | double (cs : List Char)
  | comma
  deriving DecidableEq, Repr

/-- Where the lexer stands; the characters collected so far, last one first. -/
inductive LexMode where
  | gap
  | inBare (acc : List Char)
  | inSingle (acc : List Char)
  | inDouble (acc : List Char)
  deriving DecidableEq, Repr

/-- The bare token collected so far, if there is one, put before `ts`. -/
def closeBare (acc : List Char) (ts : List AsmToken) : List AsmToken :=
  if acc = [] then ts else .bare acc.reverse :: ts

/-- The tokens of a line; none where a quote is left open. Outside quotes `;` starts a comment (R67). -/
def lexLine : List Char → LexMode → Option (List AsmToken)
  | [], .gap => some []
  | [], .inBare acc => some (closeBare acc [])
  | [], .inSingle _ => none
  | [], .inDouble _ => none
  | c :: cs, .inSingle acc =>
    if c = '\'' then (lexLine cs .gap).map (.single acc.reverse :: ·) else lexLine cs (.inSingle (c :: acc))
  | c :: cs, .inDouble acc =>
    if c = '"' then (lexLine cs .gap).map (.double acc.reverse :: ·) else lexLine cs (.inDouble (c :: acc))
  | c :: cs, .gap =>
    if c = ';' then some []
    else if c = ' ' ∨ c = '\t' then lexLine cs .gap
    else if c = ',' then (lexLine cs .gap).map (.comma :: ·)
    else if c = '\'' then lexLine cs (.inSingle [])
    else if c = '"' then lexLine cs (.inDouble [])
    else lexLine cs (.inBare [c])
  | c :: cs, .inBare acc =>
    if c = ';' then some (closeBare acc [])
    else if c = ' ' ∨ c = '\t' then (lexLine cs .gap).map (closeBare acc)
    else if c = ',' then (lexLine cs .gap).map (fun ts => closeBare acc (.comma :: ts))
    else if c = '\'' then (lexLine cs (.inSingle [])).map (closeBare acc)
    else if c = '"' then (lexLine cs (.inDouble [])).map (closeBare acc)
    else lexLine cs (.inBare (c :: acc))

/-- The value of a digit of base 10 or 16: its place among the first `base` digits. -/
def digitValue (base : Nat) (c : Char) : Option Nat := ("0123456789abcdef".toList.take base).idxOf? c.toLower

/-- The number a list of digits spells, from the value `acc` of the digits before. -/
def digitsValue (base : Nat) : Nat → List Char → Option Nat
  | acc, [] => some acc
  | acc, c :: cs => (digitValue base c).bind fun d => digitsValue base (acc * base + d) cs

/-- A number in decimal or `0x` hex (R67). -/
def numberOf : List Char → Option Nat
  | [] => none
  | '0' :: 'x' :: c :: cs => digitsValue 16 0 (c :: cs)
  | c :: cs => digitsValue 10 0 (c :: cs)

/-- The code of an ASCII character. -/
def asciiByte (c : Char) : Option Byte :=
  if c.toNat < 128 then some (BitVec.ofNat 8 c.toNat) else none

/-- `<byte>`: 0 to 255, or a one-character quoted literal; never truncated (R67). -/
def asmByte : AsmToken → Option Byte
  | .bare cs => (numberOf cs).bind fun n => if n ≤ 255 then some (BitVec.ofNat 8 n) else none
  | .single [c] => asciiByte c
  | .single _ => none
  | .double _ => none
  | .comma => none

/-- `<word>`: 0 to 0xFFFFFFFF, or a four-character quoted literal whose first character is in bits 31:24; never
truncated (R67). -/
def asmWord : AsmToken → Option Word
  | .bare cs => (numberOf cs).bind fun n => if n ≤ 0xFFFFFFFF then some (BitVec.ofNat 32 n) else none
  | .double [c0, c1, c2, c3] =>
    match asciiByte c0, asciiByte c1, asciiByte c2, asciiByte c3 with
    | some b0, some b1, some b2, some b3 => some (ofBytes b0 b1 b2 b3)
    | _, _, _, _ => none
  | .double _ => none
  | .single _ => none
  | .comma => none

/-- The register names of R67 and the numbers of spec/10_state.md R34 they stand for. -/
def regNames : List (List Char × Word) :=
  [ (['S', 'T', 'A', 'T', 'U', 'S'], 0#32), (['C', 'R', 'C'], 1#32), (['C', 'R', 'C', 'F'], 2#32),
    (['L', 'E', 'N'], 3#32), (['R', 'E', 'M'], 4#32), (['T', 'Y', 'P', 'E'], 5#32),
    (['O', 'U', 'T', 'C', 'N', 'T'], 6#32), (['E', 'A', 'R', 'G'], 7#32) ]

/-- `<n>`: a register name, or a number that fits the 32-bit field (R67). -/
def asmReg : AsmToken → Option Word
  | .bare cs =>
    match regNames.lookup cs with
    | some n => some n
    | none => asmWord (.bare cs)
  | .single _ => none
  | .double _ => none
  | .comma => none

/-- Operands separated by commas. -/
def asmList : List AsmToken → Option (List Byte)
  | [] => some []
  | [t] => (asmByte t).map fun b => [b]
  | t :: .comma :: ts =>
    match ts with
    | [] => none
    | u :: us => (asmByte t).bind fun b => (asmList (u :: us)).map (b :: ·)
  | _ :: _ :: _ => none

/-- What a mnemonic of R67 or R68 does with the tokens after it. -/
inductive AsmShape where
  | noOperand (is : List Instr)
  | oneByte (f : Byte → Instr)
  | oneWord (f : Word → Instr)
  | oneReg (f : Word → Instr)
  | oneTag (f : Word → List Instr)
  | lenTag (f : Word → Word → List Instr)
  | byteList (f : List Byte → List Instr)

/-- Apply a shape to the tokens after the mnemonic. -/
def applyShape : AsmShape → List AsmToken → Option (List Instr)
  | .noOperand is, [] => some is
  | .oneByte f, [t] => (asmByte t).map fun b => [f b]
  | .oneWord f, [t] => (asmWord t).map fun w => [f w]
  | .oneReg f, [t] => (asmReg t).map fun n => [f n]
  | .oneTag f, [t] => (asmWord t).map f
  | .lenTag f, [t, .comma, u] => (asmWord t).bind fun a => (asmWord u).map fun b => f a b
  | .byteList f, ts => (asmList ts).map f
  | _, _ => none

/-- The mnemonics of R67 and R68. -/
def mnemonics : List (String × AsmShape) :=
  [ ("NOP", .noOperand [.nop]), ("CRC.INIT", .noOperand [.crcInit]), ("CRC.EMIT", .noOperand [.crcEmit]),
    ("CHUNK.END", .noOperand [.chunkEnd]), ("CLEAR", .noOperand [.clear]),
    ("CRC.BYTE", .oneByte .crcByte), ("CHUNK.DATA", .oneByte .chunkData), ("SER.BYTE", .oneByte .serByte),
    ("CRC.WORD", .oneWord .crcWord), ("CHUNK.DATA4", .oneWord .chunkData4), ("SER.BE32", .oneWord .serBe32),
    ("CHUNK.LEN", .oneWord .chunkLen), ("CHUNK.TYPE", .oneWord .chunkType), ("RDREG", .oneReg .rdreg) ] ++
  [ ("CHUNK.BEGIN", .lenTag pseudoChunkBegin), ("CHUNK.BYTES", .byteList pseudoChunkBytes),
    ("CHUNK.EMPTY", .oneTag pseudoChunkEmpty), ("CRC.BYTES", .byteList pseudoCrcBytes),
    ("SER.BYTES", .byteList pseudoSerBytes), ("SER.SIGNATURE", .noOperand pseudoSerSignature) ]

/-- The shape of a mnemonic. -/
def shapeOf (cs : List Char) : Option AsmShape :=
  (mnemonics.find? fun m => m.1.toList == cs).map (·.2)

/-- The commands a line stands for; none is an assembly error (R67, R68). An empty line stands for no command. -/
def assembleLine (line : List Char) : Option (List Instr) :=
  match lexLine line .gap with
  | none => none
  | some [] => some []
  | some (.bare m :: ts) => (shapeOf m).bind fun sh => applyShape sh ts
  | some (_ :: _) => none

/-- The assembler's output for a line: the 40-bit words (R67). -/
def assembleWords (line : List Char) : Option (List Command) := (assembleLine line).map (List.map encode)

end Sys2Proof.Machine
end

