-- ==== Sys2Proof/Safety.lean ====
section
/-! DEFINITION. What counts as a good state and a good run, in the terms the claims use: the invariants of
spec/10_state.md R35 and R22, the end of a run of spec/70_reset_and_hazards.md R166, and the vocabulary of the
statements: one word taken, the error entry, the reset registers, the bytes a command list carries. -/

namespace Sys2Proof.Machine

/-- The invariants every state reachable from reset satisfies. -/
structure Inv (s : State) : Prop where
  /-- R35 (a). -/
  idle_nothing_due : s.inchunk = false → s.rem = 0#32
  /-- R35 (b). -/
  declared_only_idle : s.lv = true → s.inchunk = false
  /-- R35 (c), first half. -/
  due_le_declared : s.inchunk = true → s.rem ≤ s.len
  /-- R35 (c), second half, and R22: `len[31]` is 0 in every reachable state. -/
  declared_le_max : s.len ≤ 0x7FFFFFFF#32
  /-- R35 (d). -/
  code_in_table : s.ecode ≤ 9#4
  /-- R28, R29: the error record is written only together with a non-zero `ecode`, and cleared with it. -/
  no_error_no_record : s.ecode = 0#4 → s.eop = 0#8 ∧ s.earg = 0#32

/-! Vocabulary of the statements -/

/-- `s` with exactly the three fields of R135 written. -/
def errorEntry (code : BitVec 4) (op : Byte) (arg : Word) (s : State) : State :=
  { s with ecode := code, eop := op, earg := arg }

/-- `s` with every register at the reset column of R20; the trace as it was (R37). -/
def registersReset (s : State) : State :=
  { s with
    crc := 0xFFFFFFFF#32, len := 0#32, lv := false, inchunk := false, rem := 0#32, type := 0#32,
    ecode := 0#4, eop := 0#8, earg := 0#32, outcnt := 0#32 }

/-- With the word `cmd` next on the port, whatever follows it and however much of OUT and RESP the host has drained, so
long as the port is not stalled: one step from `s` takes the word, advances the position by 1 and leads to `t` in
everything else. -/
def Takes (cmd : Command) (s t : State) : Prop :=
  ∀ (a b : Nat) (rest : List HostMove), portStalled { s with outTaken := a, respTaken := b } = false →
    step { s with outTaken := a, respTaken := b, port := .offer cmd :: rest } =
      .next { t with outTaken := a, respTaken := b, port := rest, pos := s.pos + 1 }

/-- Every byte of the tag is an ASCII letter (R93). -/
def LetterTag (w : Word) : Prop :=
  ∀ x ∈ be32 w, (0x41#8 ≤ x ∧ x ≤ 0x5A#8) ∨ (0x61#8 ≤ x ∧ x ≤ 0x7A#8)

/-- The 14 defined opcode bytes (R62). -/
def definedOps : List Byte :=
  [0x00#8, 0x01#8, 0x02#8, 0x03#8, 0x04#8, 0x10#8, 0x11#8, 0x12#8, 0x13#8, 0x14#8, 0x20#8, 0x21#8, 0xF0#8, 0xFF#8]

/-- A defined opcode with a reserved argument bit set, or RDREG with `n >= 8` (R64). -/
def ReservedSet (op : Byte) (arg : Word) : Prop :=
  (op ∈ [0x00#8, 0x01#8, 0x04#8, 0x14#8, 0xFF#8] ∧ arg ≠ 0#32) ∨
  (op ∈ [0x02#8, 0x12#8, 0x20#8] ∧ 0x100#32 ≤ arg) ∨
  (op = 0xF0#8 ∧ 8#32 ≤ arg)

/-- Opcodes admitted in idle mode only (R134). -/
def idleOps : List Byte := [0x01#8, 0x02#8, 0x03#8, 0x04#8, 0x10#8, 0x11#8, 0x20#8, 0x21#8]

/-- Opcodes admitted in chunk mode only (R134). -/
def chunkOps : List Byte := [0x12#8, 0x13#8, 0x14#8]

/-- The raw CRC after the four bytes of `w`, byte 0 first, from `c` (R84, R92, R95). -/
def crcWordOf (c : Word) (w : Word) : Word :=
  crcByte (crcByte (crcByte (crcByte c (w.extractLsb' 24 8)) (w.extractLsb' 16 8)) (w.extractLsb' 8 8))
    (w.extractLsb' 0 8)

/-- NOP, or RDREG with a register number: what may stand between the commands of a chunk (R97). -/
def quiet : Instr → Bool
  | .nop => true
  | .rdreg n => decide (n < 8#32)
  | _ => false

/-- What may stand between CHUNK.TYPE and CHUNK.END (R97). -/
def contentPhase : Instr → Bool
  | .chunkData _ => true
  | .chunkData4 _ => true
  | i => quiet i

/-- The content bytes a command carries (R94, R95). -/
def contentOf : Instr → List Byte
  | .chunkData b => [b]
  | .chunkData4 w => be32 w
  | _ => []

/-- CRC.BYTE or CRC.WORD (R86). -/
def crcPhase : Instr → Bool
  | .crcByte _ => true
  | .crcWord _ => true
  | _ => false

/-- The bytes a CRC command absorbs (R83, R84). -/
def absorbedBy : Instr → List Byte
  | .crcByte b => [b]
  | .crcWord w => be32 w
  | _ => []

/-- The bytes a serializer command emits (R111, R112). -/
def serializedBy : Instr → List Byte
  | .serByte b => [b]
  | .serBe32 w => be32 w
  | _ => []

/-- RDREG. -/
def isRdreg : Instr → Bool
  | .rdreg _ => true
  | _ => false

/-- The word a move offers. -/
def offered : HostMove → Option Command
  | .offer cmd => some cmd
  | .takeOut => none
  | .takeResp => none
  | .rst => none
  | .rstDuring _ => none

/-- A reset, in either form. -/
def isReset : HostMove → Bool
  | .offer _ => false
  | .takeOut => false
  | .takeResp => false
  | .rst => true
  | .rstDuring _ => true

/-- The host offers these commands in order (R12, R31), drains OUT and RESP whenever and as much as it wants, and does
not reset the block. -/
def Offers (ms : List HostMove) (is : List Instr) : Prop :=
  (∀ m ∈ ms, isReset m = false) ∧ ms.filterMap offered = is.map encode

/-- `k` steps of the block, stopping at the first step that answers no next state. -/
def runSteps : Nat → State → Result
  | 0, s => .next s
  | k + 1, s =>
    match step s with
    | .next t => runSteps k t
    | .fault r => .fault r
    | .refused r => .refused r

/-- What offering these commands from `s` leads to, but for how much the host has drained: `t`, whenever a host that
offers them, draining as it likes, gets through to the moves it makes afterwards; and some host does get through. -/
def RunsTo (is : List Instr) (s t : State) : Prop :=
  (∀ (ms rest : List HostMove) (a b k : Nat) (u : State), Offers ms is →
    runSteps k { s with outTaken := a, respTaken := b, port := ms ++ rest } = .next u → u.port = rest →
      ∃ a' b', u = { t with outTaken := a', respTaken := b', port := rest }) ∧
  (∀ a b : Nat, ∃ (ms : List HostMove) (k a' b' : Nat), Offers ms is ∧ ∀ rest,
    runSteps k { s with outTaken := a, respTaken := b, port := ms ++ rest } =
      .next { t with outTaken := a', respTaken := b', port := rest })

/-- One turn of the CRC register in the polynomial's normal, most significant bit first, form (R80). -/
def msbCrcBit (r : Word) : Word := if r.getLsbD 31 then (r <<< 1) ^^^ 0x04C11DB7#32 else r <<< 1

/-- A run that ended here was a correct chunk stream (R166). -/
def Correct (s : State) : Prop := s.ecode = 0#4 ∧ s.inchunk = false

end Sys2Proof.Machine
end

