-- ==== Sys2Proof/Certificates/Slice0/Obligations.lean ====
section
/-! DEFINITION. The statements about the block, made from the numbered rules of spec/. None is about a program. -/

open Sys2Proof Sys2Proof.Machine

/-! Encoding -/

/-- spec/30_encoding.md R60 to R62: no bit of an encoding is dropped. -/
def Obligations.DecodeInvertsEncode : Prop :=
  ∀ i : Instr, i.wellFormed = true → decode (encode i) = .ok i

/-- spec/30_encoding.md R62: each accepted word has one meaning and is its own encoding. -/
def Obligations.EncodeInvertsDecode : Prop :=
  ∀ (cmd : Command) (i : Instr), decode cmd = .ok i → i.wellFormed = true ∧ encode i = cmd

/-- spec/30_encoding.md R65 (`WellFormed`), with the forms of R61 written out: which words are commands. -/
def Obligations.DecoderAcceptsExactlyWellFormedWords : Prop :=
  ∀ (op : Byte) (arg : Word),
    (∃ i, decode (mkCommand op arg) = .ok i) ↔ op ∈ definedOps ∧ ¬ ReservedSet op arg

/-- The worked encodings of spec/30_encoding.md R69 and one word per family of the opcode map. -/
def Obligations.SampleWordsDecode : Prop :=
  decode 0x1149454E44#40 = .ok (.chunkType 0x49454E44#32) ∧
  decode 0x1200000096#40 = .ok (.chunkData 0x96#8) ∧
  decode 0x100000000D#40 = .ok (.chunkLen 13#32) ∧
  decode 0xF000000002#40 = .ok (.rdreg 2#32) ∧
  decode 0xFF00000000#40 = .ok .clear ∧
  decode 0x1200000100#40 = .error .reservedArg ∧
  decode 0x0500000000#40 = .error .illegalOp ∧
  decode 0x0200000061#40 = .ok (.crcByte 0x61#8) ∧
  decode 0x2101020304#40 = .ok (.serBe32 0x01020304#32)

/-! The step -/

/-- spec/60_exceptions.md R131, spec/20_memory.md R45: where the port is not stalled, a step takes the word at the head
of the port, and where it decodes to a command, runs that command at the next position. The list of moves is the model's
form of the port (log entry 1), the condition on it log entry 3. -/
def Obligations.StepRunsTheDecodedCommand : Prop :=
  ∀ (s : State) (cmd : Command) (i : Instr) (rest : List HostMove), portStalled s = false → decode cmd = .ok i →
    step { s with port := .offer cmd :: rest } = exec i { s with port := rest, pos := s.pos + 1 }

/-- spec/10_state.md R31: the position advances by exactly 1 for every word taken, whatever becomes of it, and no
command changes the order of those that follow. A word is taken where the port is not stalled. -/
def Obligations.EveryWordAdvancesThePositionByOne : Prop :=
  ∀ (s : State) (cmd : Command) (rest : List HostMove), portStalled s = false →
    ∃ t, step { s with port := .offer cmd :: rest } = .next t ∧ t.pos = s.pos + 1 ∧ t.port = rest

/-- No step faults and none is refused (the block never stops: spec/60_exceptions.md R136, R149). -/
def Obligations.EveryStepAnswersANextState : Prop := ∀ s : State, ∃ t, step s = .next t

/-- spec/60_exceptions.md R149. -/
def Obligations.IdlePortKeepsEverything : Prop := ∀ s : State, s.port = [] → step s = .next s

/-- spec/20_memory.md R45: a stall delays a command, it never changes its effect. A word the stalled port does not take
changes nothing; and once it is taken, the registers, the trace and the position it leads to are the same however much
the host has drained. When the port stalls is log entry 3. -/
def Obligations.StallDelaysOnly : Prop :=
  ∀ (s : State) (cmd : Command) (rest : List HostMove),
    (portStalled s = true → step { s with port := .offer cmd :: rest } = .next { s with port := .offer cmd :: rest }) ∧
    (∀ (a b a' b' : Nat) (t : State),
      portStalled { s with outTaken := a, respTaken := b } = false →
      portStalled { s with outTaken := a', respTaken := b' } = false →
      step { s with outTaken := a, respTaken := b, port := .offer cmd :: rest } = .next t →
        step { s with outTaken := a', respTaken := b', port := .offer cmd :: rest } =
          .next { t with outTaken := a', respTaken := b' })

/-- spec/20_memory.md R45, spec/70_reset_and_hazards.md R165 (b), in the form of log entry 3: the command port is stalled
exactly where a stream has something the host has not taken and as much of it as its buffer is deep. -/
def Obligations.PortStallsExactlyWithoutRoom : Prop :=
  ∀ s : State, portStalled s = true ↔
    (s.outTaken < s.out.length ∧ Config.outDepth ≤ s.out.length - s.outTaken) ∨
    (s.respTaken < s.resp.length ∧ Config.respDepth ≤ s.resp.length - s.respTaken)

/-- spec/70_reset_and_hazards.md R165 (b), (d), spec/60_exceptions.md R136: a host that offers a word to a stalled port
and does not drain, or waits for a byte or a word that has not been produced, makes no more progress, however many steps
are taken. The order of the host's moves is log entries 1 and 3. -/
def Obligations.HostThatNeverDrainsWaitsForEver : Prop :=
  ∀ (s : State) (cmd : Command) (rest : List HostMove) (k : Nat),
    (portStalled s = true →
      runSteps k { s with port := .offer cmd :: rest } = .next { s with port := .offer cmd :: rest }) ∧
    (s.out.length ≤ s.outTaken →
      runSteps k { s with port := .takeOut :: rest } = .next { s with port := .takeOut :: rest }) ∧
    (s.resp.length ≤ s.respTaken →
      runSteps k { s with port := .takeResp :: rest } = .next { s with port := .takeResp :: rest })

/-- spec/70_reset_and_hazards.md R165 (b): a host that drains OUT and RESP gets the port out of every stall, and
draining changes nothing but how much it has taken. The moves are log entry 3. -/
def Obligations.DrainingEndsEveryStall : Prop :=
  ∀ (s : State) (rest : List HostMove), ∃ (n m : Nat) (t : State),
    runSteps (n + m) { s with port := List.replicate n .takeOut ++ (List.replicate m .takeResp ++ rest) } = .next t ∧
    t = { s with outTaken := s.outTaken + n, respTaken := s.respTaken + m, port := rest } ∧ portStalled t = false

/-- spec/20_memory.md R41, R42, spec/70_reset_and_hazards.md R162: the host takes only what the block has produced and
never gives anything back; every step keeps that, a reset during a command too. The counts of what it has taken are the
model's (log entry 3). -/
def Obligations.HostTakesOnlyWhatWasProduced : Prop :=
  ∀ s t : State, s.outTaken ≤ s.out.length → s.respTaken ≤ s.resp.length → step s = .next t →
    t.outTaken ≤ t.out.length ∧ t.respTaken ≤ t.resp.length ∧ s.outTaken ≤ t.outTaken ∧ s.respTaken ≤ t.respTaken

/-- spec/10_state.md R37, spec/70_reset_and_hazards.md R160: what `rst` leaves between commands, what it leaves in the
registers during one, what CLEAR leaves, and that the initial state is that state. That `rst` keeps the position is log
entry 5, and a reset during a command has the form of log entry 2. -/
def Obligations.ResetLeavesEveryRegisterAtItsResetValue : Prop :=
  (∀ (s : State) (rest : List HostMove),
    step { s with port := .rst :: rest } = .next { registersReset s with port := rest }) ∧
  (∀ (s : State) (cmd : Command) (rest : List HostMove), ∃ t,
    step { s with port := .rstDuring cmd :: rest } = .next t ∧
    t = registersReset { s with trace := t.trace, pos := t.pos, port := t.port }) ∧
  (∀ s : State, Takes (mkCommand 0xFF#8 0#32) s (registersReset s)) ∧
  (∀ s : State, status (registersReset s) = 0#32 ∧ errO (registersReset s) = false) ∧
  State.reset = registersReset State.reset

/-- spec/70_reset_and_hazards.md R161, in the form of log entry 2: a reset during a command cuts that command's events
at some point, and every event before the command stays. -/
def Obligations.ResetDuringACommandCutsOnlyItsOwnEvents : Prop :=
  ∀ (s t u : State) (cmd : Command) (rest : List HostMove),
    step { s with port := .offer cmd :: rest } = .next t →
    step { s with port := .rstDuring cmd :: rest } = .next u →
      ∃ (evs : List Event) (k : Nat), t.trace = s.trace ++ evs ∧ u.trace = s.trace ++ evs.take k

/-! Errors and the error state -/

/-- spec/30_encoding.md R63. -/
def Obligations.UndefinedOpcodeIsIllegal : Prop :=
  (∀ (s : State) (op : Byte) (arg : Word), op ∉ definedOps →
    (s.ecode = 0#4 → Takes (mkCommand op arg) s (errorEntry 1#4 op arg s)) ∧
    (s.ecode ≠ 0#4 → Takes (mkCommand op arg) s s)) ∧
  ((List.range 256).filter fun k => decide (BitVec.ofNat 8 k ∉ definedOps)).length = 242

/-- spec/30_encoding.md R64. -/
def Obligations.ReservedArgumentBitsAreRefused : Prop :=
  ∀ (s : State) (op : Byte) (arg : Word), ReservedSet op arg →
    (s.ecode = 0#4 → Takes (mkCommand op arg) s (errorEntry 2#4 op arg s)) ∧
    (s.ecode ≠ 0#4 → Takes (mkCommand op arg) s s)

/-- spec/60_exceptions.md R132, R136: in the error state exactly the well-formed NOP, RDREG and CLEAR are performed,
and every other word is discarded. -/
def Obligations.ErrorStateFiltersCommands : Prop :=
  ∀ s : State, s.ecode ≠ 0#4 →
    Takes (mkCommand 0x00#8 0#32) s s ∧
    Takes (mkCommand 0xFF#8 0#32) s (registersReset s) ∧
    (∀ n v, readReg n s = some v → Takes (mkCommand 0xF0#8 n) s { s with trace := s.trace ++ [.resp v] }) ∧
    (∀ n : Word, n < 8#32 → ∃ v, readReg n s = some v) ∧
    (∀ (op : Byte) (arg : Word),
      ¬ (op = 0x00#8 ∧ arg = 0#32) → ¬ (op = 0xFF#8 ∧ arg = 0#32) → ¬ (op = 0xF0#8 ∧ arg < 8#32) →
      Takes (mkCommand op arg) s s)

/-- spec/60_exceptions.md R134: which modes admit a command, and the error where the mode does not. -/
def Obligations.ModeCheckFollowsTheTable : Prop :=
  ∀ (i : Instr) (s : State), s.ecode = 0#4 → i.wellFormed = true →
    (i.op ∈ idleOps → s.inchunk = true → exec i s = .next (errorEntry 3#4 i.op i.arg s)) ∧
    (i.op ∈ chunkOps → s.inchunk = false → exec i s = .next (errorEntry 4#4 i.op i.arg s)) ∧
    ((i.op ∈ idleOps → s.inchunk = false) → (i.op ∈ chunkOps → s.inchunk = true) →
      ∃ t, exec i s = .next t ∧ t.ecode ≠ 3#4 ∧ t.ecode ≠ 4#4)

/-- spec/60_exceptions.md R135: a word that raises an error changes the three error fields and nothing else. -/
def Obligations.ErrorEntryChangesOnlyTheErrorRecord : Prop :=
  ∀ (s t : State) (op : Byte) (arg : Word) (rest : List HostMove), s.ecode = 0#4 →
    step { s with port := .offer (mkCommand op arg) :: rest } = .next t → t.ecode ≠ 0#4 →
      t = { errorEntry t.ecode op arg s with port := rest, pos := s.pos + 1 }

/-- spec/60_exceptions.md R141: the one error raised is the first that applies in the order ILLEGAL_OP, RESERVED_ARG,
the mode check, the command's own checks with NO_LENGTH before BAD_TYPE. -/
def Obligations.FirstApplicableErrorIsRaised : Prop :=
  ∀ (s : State) (op : Byte) (arg : Word), s.ecode = 0#4 →
    let raises := fun code : BitVec 4 => Takes (mkCommand op arg) s (errorEntry code op arg s)
    (op ∉ definedOps → raises 1#4) ∧
    (ReservedSet op arg → raises 2#4) ∧
    (op ∈ idleOps → ¬ ReservedSet op arg → s.inchunk = true → raises 3#4) ∧
    (op ∈ chunkOps → ¬ ReservedSet op arg → s.inchunk = false → raises 4#4) ∧
    (op = 0x11#8 → s.inchunk = false → s.lv = false → raises 5#4) ∧
    (op = 0x11#8 → s.inchunk = false → s.lv = true → ¬ LetterTag arg → raises 7#4) ∧
    (op = 0x10#8 → s.inchunk = false → 0x7FFFFFFF#32 < arg → raises 6#4) ∧
    (op = 0x12#8 → ¬ ReservedSet op arg → s.inchunk = true → s.rem = 0#32 → raises 8#4) ∧
    (op = 0x13#8 → s.inchunk = true → s.rem < 4#32 → raises 8#4) ∧
    (op = 0x14#8 → ¬ ReservedSet op arg → s.inchunk = true → s.rem ≠ 0#32 → raises 9#4)

/-- spec/60_exceptions.md R130: each code is raised only by the commands of its row and only for its cause, no code
above 9 is written, and the opcode byte and the argument are recorded. -/
def Obligations.ErrorCodesMatchTheirCauses : Prop :=
  ∀ (s t : State) (op : Byte) (arg : Word) (rest : List HostMove), s.ecode = 0#4 →
    step { s with port := .offer (mkCommand op arg) :: rest } = .next t →
      t.ecode ≤ 9#4 ∧
      (t.ecode ≠ 0#4 → t.eop = op ∧ t.earg = arg) ∧
      (t.ecode = 1#4 → op ∉ definedOps) ∧
      (t.ecode = 2#4 → ReservedSet op arg) ∧
      (t.ecode = 3#4 → op ∈ idleOps ∧ s.inchunk = true) ∧
      (t.ecode = 4#4 → op ∈ chunkOps ∧ s.inchunk = false) ∧
      (t.ecode = 5#4 → op = 0x11#8 ∧ s.lv = false) ∧
      (t.ecode = 6#4 → op = 0x10#8 ∧ 0x7FFFFFFF#32 < arg) ∧
      (t.ecode = 7#4 → op = 0x11#8 ∧ ¬ LetterTag arg) ∧
      (t.ecode = 8#4 → (op = 0x12#8 ∧ s.rem = 0#32) ∨ (op = 0x13#8 ∧ s.rem < 4#32)) ∧
      (t.ecode = 9#4 → op = 0x14#8 ∧ s.rem ≠ 0#32)

/-- spec/60_exceptions.md R138: only CLEAR and reset set `ecode` to 0, and both return every other register to its
reset value. -/
def Obligations.OnlyClearAndResetLeaveTheErrorState : Prop :=
  ∀ s t : State, step s = .next t → s.ecode ≠ 0#4 → t.ecode = 0#4 →
    (∃ rest, s.port = .offer (mkCommand 0xFF#8 0#32) :: rest ∨ s.port = .rst :: rest ∨
      ∃ cmd, s.port = .rstDuring cmd :: rest) ∧
    t = registersReset { s with trace := t.trace, pos := t.pos, port := t.port }

/-- spec/60_exceptions.md R139: errors do not nest. A step that changes the error record of a state in the error state
empties it. -/
def Obligations.ErrorsDoNotNest : Prop :=
  ∀ s t : State, step s = .next t → s.ecode ≠ 0#4 →
    (t.ecode = s.ecode ∧ t.eop = s.eop ∧ t.earg = s.earg) ∨ t.ecode = 0#4

/-- spec/10_state.md R38, spec/60_exceptions.md R137: the error line is STATUS.ERR, is 1 exactly in the error state,
and falls only at CLEAR or reset. -/
def Obligations.ErrorLineFollowsTheErrorState : Prop :=
  (∀ s : State, errO s = (status s).getLsbD 2 ∧ (errO s = true ↔ s.ecode ≠ 0#4)) ∧
  (∀ s t : State, step s = .next t → errO s = true → errO t = false →
    ∃ rest, s.port = .offer (mkCommand 0xFF#8 0#32) :: rest ∨ s.port = .rst :: rest ∨
      ∃ cmd, s.port = .rstDuring cmd :: rest)

/-- spec/10_state.md R33: every bit of the status word, and that RDREG 0 returns it. -/
def Obligations.StatusWordLayout : Prop :=
  ∀ s : State,
    (status s).getLsbD 0 = s.inchunk ∧ (status s).getLsbD 1 = s.lv ∧
    ((status s).getLsbD 2 = true ↔ s.ecode ≠ 0#4) ∧ (status s).getLsbD 3 = false ∧
    (status s).extractLsb' 4 4 = s.ecode ∧ (status s).extractLsb' 8 8 = s.eop ∧
    (status s).extractLsb' 16 16 = 0#16 ∧
    Takes (mkCommand 0xF0#8 0#32) s { s with trace := s.trace ++ [.resp (status s)] }

/-! Invariants and whole-machine rules -/

/-- spec/10_state.md R35, with R22's bound on `len` and R28, R29's empty record: every step keeps them. -/
def Obligations.EveryStepKeepsTheInvariants : Prop :=
  ∀ s t : State, Inv s → step s = .next t → Inv t

/-- The state after reset has the invariants. -/
def Obligations.ResetStateHasTheInvariants : Prop := Inv State.reset

/-- spec/20_memory.md R43: the trace only grows, and OUT and RESP grow by the two projections of what was added. -/
def Obligations.TraceOnlyGrows : Prop :=
  ∀ s t : State, step s = .next t →
    ∃ evs, t.trace = s.trace ++ evs ∧ t.out = s.out ++ outBytes evs ∧ t.resp = s.resp ++ respWords evs

/-- spec/20_memory.md R42: only RDREG responds, once per performed RDREG. -/
def Obligations.OnlyRdregResponds : Prop :=
  ∀ (i : Instr) (s t : State), exec i s = .next t →
    (t.resp ≠ s.resp → ∃ n v, i = .rdreg n ∧ readReg n s = some v ∧ t.resp = s.resp ++ [v]) ∧
    (∀ n, i = .rdreg n → n < 8#32 → ∃ v, t.resp = s.resp ++ [v])

/-- spec/10_state.md R30, spec/20_memory.md R41: `outcnt` grows by the number of bytes emitted, modulo 2^32, for every
word taken but CLEAR, and CLEAR sets it to 0. -/
def Obligations.OutcntCountsEmittedBytes : Prop :=
  ∀ (s t : State) (cmd : Command) (rest : List HostMove), portStalled s = false →
    step { s with port := .offer cmd :: rest } = .next t →
      (cmd = mkCommand 0xFF#8 0#32 → t.outcnt = 0#32 ∧ t.out = s.out) ∧
      (cmd ≠ mkCommand 0xFF#8 0#32 →
        ∃ bs : List Byte, t.out = s.out ++ bs ∧ t.outcnt.toNat = (s.outcnt.toNat + bs.length) % 2 ^ 32)

/-- spec/10_state.md R20, R32, R37: each register is written only by the commands rule R20 lists, and holds its reset
value after reset. -/
def Obligations.RegistersAreWrittenOnlyByTheirCommands : Prop :=
  (∀ (i : Instr) (s t : State), exec i s = .next t →
    (t.crc ≠ s.crc → i.op ∈ [0x01#8, 0x02#8, 0x03#8, 0x11#8, 0x12#8, 0x13#8, 0xFF#8]) ∧
    (t.len ≠ s.len → i.op ∈ [0x10#8, 0xFF#8]) ∧
    (t.lv ≠ s.lv → i.op ∈ [0x10#8, 0x11#8, 0xFF#8]) ∧
    (t.inchunk ≠ s.inchunk → i.op ∈ [0x11#8, 0x14#8, 0xFF#8]) ∧
    (t.rem ≠ s.rem → i.op ∈ [0x11#8, 0x12#8, 0x13#8, 0xFF#8]) ∧
    (t.type ≠ s.type → i.op ∈ [0x11#8, 0xFF#8]) ∧
    (t.ecode ≠ s.ecode ∨ t.eop ≠ s.eop ∨ t.earg ≠ s.earg →
      i = .clear ∨ (s.ecode = 0#4 ∧ t = errorEntry t.ecode i.op i.arg s)) ∧
    (t.outcnt ≠ s.outcnt → t.out ≠ s.out ∨ i = .clear)) ∧
  State.reset.crc = 0xFFFFFFFF#32 ∧ State.reset.len = 0#32 ∧ State.reset.lv = false ∧
  State.reset.inchunk = false ∧ State.reset.rem = 0#32 ∧ State.reset.type = 0#32 ∧ State.reset.ecode = 0#4 ∧
  State.reset.eop = 0#8 ∧ State.reset.earg = 0#32 ∧ State.reset.outcnt = 0#32

/-- spec/20_memory.md R54 and spec/10_state.md R36: no command reads the trace, the position, how much the host has
drained or what it will do next; two states that agree on the registers, both with room at the ports, lead to states
that agree on them and add the same events. -/
def Obligations.CommandsReadOnlyTheRegisters : Prop :=
  ∀ (cmd : Command) (s : State) (tr : List Event) (p a b : Nat) (rest rest' : List HostMove) (t : State),
    portStalled s = false → portStalled { s with trace := tr, outTaken := a, respTaken := b } = false →
    step { s with port := .offer cmd :: rest } = .next t →
      ∃ evs, t.trace = s.trace ++ evs ∧
        step { s with trace := tr, pos := p, outTaken := a, respTaken := b, port := .offer cmd :: rest' } =
          .next { t with trace := tr ++ evs, pos := p + 1, outTaken := a, respTaken := b, port := rest' }

/-! The commands, one rule each: every word of the opcode in every state -/

/-- spec/44_control.md R120. -/
def Obligations.NopFollowsItsRule : Prop :=
  ∀ (s : State) (arg : Word),
    exec .nop s = .next s ∧ Takes (mkCommand 0x00#8 0#32) s s ∧
    (s.ecode = 0#4 → arg ≠ 0#32 → Takes (mkCommand 0x00#8 arg) s (errorEntry 2#4 0x00#8 arg s)) ∧
    (s.ecode ≠ 0#4 → arg ≠ 0#32 → Takes (mkCommand 0x00#8 arg) s s)

/-- spec/44_control.md R121, spec/10_state.md R34. -/
def Obligations.RdregFollowsItsRule : Prop :=
  ∀ (s : State) (n v : Word),
    ((n, v) ∈ [(0#32, status s), (1#32, s.crc), (2#32, s.crc ^^^ 0xFFFFFFFF#32), (3#32, s.len), (4#32, s.rem),
        (5#32, s.type), (6#32, s.outcnt), (7#32, s.earg)] →
      exec (.rdreg n) s = .next { s with trace := s.trace ++ [.resp v] } ∧
      Takes (mkCommand 0xF0#8 n) s { s with trace := s.trace ++ [.resp v] }) ∧
    (8#32 ≤ n → s.ecode = 0#4 → Takes (mkCommand 0xF0#8 n) s (errorEntry 2#4 0xF0#8 n s)) ∧
    (8#32 ≤ n → s.ecode ≠ 0#4 → Takes (mkCommand 0xF0#8 n) s s)

/-- spec/44_control.md R122. -/
def Obligations.ClearFollowsItsRule : Prop :=
  ∀ (s : State) (arg : Word),
    exec .clear s = .next (registersReset s) ∧ Takes (mkCommand 0xFF#8 0#32) s (registersReset s) ∧
    (s.ecode = 0#4 → arg ≠ 0#32 → Takes (mkCommand 0xFF#8 arg) s (errorEntry 2#4 0xFF#8 arg s)) ∧
    (s.ecode ≠ 0#4 → arg ≠ 0#32 → Takes (mkCommand 0xFF#8 arg) s s)

/-- spec/41_crc.md R82. -/
def Obligations.CrcInitFollowsItsRule : Prop :=
  ∀ (s : State) (arg : Word),
    (s.ecode ≠ 0#4 → Takes (mkCommand 0x01#8 arg) s s) ∧
    (s.ecode = 0#4 → arg ≠ 0#32 → Takes (mkCommand 0x01#8 arg) s (errorEntry 2#4 0x01#8 arg s)) ∧
    (s.ecode = 0#4 → s.inchunk = true → Takes (mkCommand 0x01#8 0#32) s (errorEntry 3#4 0x01#8 0#32 s)) ∧
    (s.ecode = 0#4 → s.inchunk = false →
      exec .crcInit s = .next { s with crc := 0xFFFFFFFF#32 } ∧
      Takes (mkCommand 0x01#8 0#32) s { s with crc := 0xFFFFFFFF#32 })

/-- spec/41_crc.md R83. -/
def Obligations.CrcByteFollowsItsRule : Prop :=
  ∀ (s : State) (arg : Word) (b : Byte),
    (s.ecode ≠ 0#4 → Takes (mkCommand 0x02#8 arg) s s) ∧
    (s.ecode = 0#4 → 0x100#32 ≤ arg → Takes (mkCommand 0x02#8 arg) s (errorEntry 2#4 0x02#8 arg s)) ∧
    (s.ecode = 0#4 → s.inchunk = true →
      Takes (mkCommand 0x02#8 (b.setWidth 32)) s (errorEntry 3#4 0x02#8 (b.setWidth 32) s)) ∧
    (s.ecode = 0#4 → s.inchunk = false →
      exec (.crcByte b) s = .next { s with crc := crcByte s.crc b } ∧
      Takes (mkCommand 0x02#8 (b.setWidth 32)) s { s with crc := crcByte s.crc b })

/-- spec/41_crc.md R84. -/
def Obligations.CrcWordFollowsItsRule : Prop :=
  ∀ (s : State) (w : Word),
    (s.ecode ≠ 0#4 → Takes (mkCommand 0x03#8 w) s s) ∧
    (s.ecode = 0#4 → s.inchunk = true → Takes (mkCommand 0x03#8 w) s (errorEntry 3#4 0x03#8 w s)) ∧
    (s.ecode = 0#4 → s.inchunk = false →
      exec (.crcWord w) s = .next { s with crc := crcWordOf s.crc w } ∧
      Takes (mkCommand 0x03#8 w) s { s with crc := crcWordOf s.crc w })

/-- spec/41_crc.md R85. -/
def Obligations.CrcEmitFollowsItsRule : Prop :=
  ∀ (s : State) (arg : Word),
    (s.ecode ≠ 0#4 → Takes (mkCommand 0x04#8 arg) s s) ∧
    (s.ecode = 0#4 → arg ≠ 0#32 → Takes (mkCommand 0x04#8 arg) s (errorEntry 2#4 0x04#8 arg s)) ∧
    (s.ecode = 0#4 → s.inchunk = true → Takes (mkCommand 0x04#8 0#32) s (errorEntry 3#4 0x04#8 0#32 s)) ∧
    (s.ecode = 0#4 → s.inchunk = false →
      let t := { s with trace := s.trace ++ (be32 (s.crc ^^^ 0xFFFFFFFF#32)).map .out, outcnt := s.outcnt + 4#32 }
      exec .crcEmit s = .next t ∧ Takes (mkCommand 0x04#8 0#32) s t)

/-- spec/42_chunk.md R91. -/
def Obligations.ChunkLenFollowsItsRule : Prop :=
  ∀ (s : State) (w : Word),
    (s.ecode ≠ 0#4 → Takes (mkCommand 0x10#8 w) s s) ∧
    (s.ecode = 0#4 → s.inchunk = true → Takes (mkCommand 0x10#8 w) s (errorEntry 3#4 0x10#8 w s)) ∧
    (s.ecode = 0#4 → s.inchunk = false → 0x7FFFFFFF#32 < w →
      Takes (mkCommand 0x10#8 w) s (errorEntry 6#4 0x10#8 w s)) ∧
    (s.ecode = 0#4 → s.inchunk = false → w ≤ 0x7FFFFFFF#32 →
      exec (.chunkLen w) s = .next { s with len := w, lv := true } ∧
      Takes (mkCommand 0x10#8 w) s { s with len := w, lv := true })

/-- spec/42_chunk.md R92, R93. -/
def Obligations.ChunkTypeFollowsItsRule : Prop :=
  ∀ (s : State) (w : Word),
    (s.ecode ≠ 0#4 → Takes (mkCommand 0x11#8 w) s s) ∧
    (s.ecode = 0#4 → s.inchunk = true → Takes (mkCommand 0x11#8 w) s (errorEntry 3#4 0x11#8 w s)) ∧
    (s.ecode = 0#4 → s.inchunk = false → s.lv = false →
      Takes (mkCommand 0x11#8 w) s (errorEntry 5#4 0x11#8 w s)) ∧
    (s.ecode = 0#4 → s.inchunk = false → s.lv = true → ¬ LetterTag w →
      Takes (mkCommand 0x11#8 w) s (errorEntry 7#4 0x11#8 w s)) ∧
    (s.ecode = 0#4 → s.inchunk = false → s.lv = true → LetterTag w →
      let t := { s with
        trace := s.trace ++ (be32 s.len ++ be32 w).map .out, outcnt := s.outcnt + 8#32,
        crc := crcWordOf 0xFFFFFFFF#32 w, type := w, rem := s.len, lv := false, inchunk := true }
      exec (.chunkType w) s = .next t ∧ Takes (mkCommand 0x11#8 w) s t)

/-- spec/42_chunk.md R94. -/
def Obligations.ChunkDataFollowsItsRule : Prop :=
  ∀ (s : State) (arg : Word) (b : Byte),
    (s.ecode ≠ 0#4 → Takes (mkCommand 0x12#8 arg) s s) ∧
    (s.ecode = 0#4 → 0x100#32 ≤ arg → Takes (mkCommand 0x12#8 arg) s (errorEntry 2#4 0x12#8 arg s)) ∧
    (s.ecode = 0#4 → s.inchunk = false →
      Takes (mkCommand 0x12#8 (b.setWidth 32)) s (errorEntry 4#4 0x12#8 (b.setWidth 32) s)) ∧
    (s.ecode = 0#4 → s.inchunk = true → s.rem = 0#32 →
      Takes (mkCommand 0x12#8 (b.setWidth 32)) s (errorEntry 8#4 0x12#8 (b.setWidth 32) s)) ∧
    (s.ecode = 0#4 → s.inchunk = true → s.rem ≠ 0#32 →
      let t := { s with
        trace := s.trace ++ [.out b], outcnt := s.outcnt + 1#32, crc := crcByte s.crc b, rem := s.rem - 1#32 }
      exec (.chunkData b) s = .next t ∧ Takes (mkCommand 0x12#8 (b.setWidth 32)) s t)

/-- spec/42_chunk.md R95. -/
def Obligations.ChunkData4FollowsItsRule : Prop :=
  ∀ (s : State) (w : Word),
    (s.ecode ≠ 0#4 → Takes (mkCommand 0x13#8 w) s s) ∧
    (s.ecode = 0#4 → s.inchunk = false → Takes (mkCommand 0x13#8 w) s (errorEntry 4#4 0x13#8 w s)) ∧
    (s.ecode = 0#4 → s.inchunk = true → s.rem < 4#32 →
      Takes (mkCommand 0x13#8 w) s (errorEntry 8#4 0x13#8 w s)) ∧
    (s.ecode = 0#4 → s.inchunk = true → 4#32 ≤ s.rem →
      let t := { s with
        trace := s.trace ++ (be32 w).map .out, outcnt := s.outcnt + 4#32, crc := crcWordOf s.crc w,
        rem := s.rem - 4#32 }
      exec (.chunkData4 w) s = .next t ∧ Takes (mkCommand 0x13#8 w) s t)

/-- spec/42_chunk.md R96. -/
def Obligations.ChunkEndFollowsItsRule : Prop :=
  ∀ (s : State) (arg : Word),
    (s.ecode ≠ 0#4 → Takes (mkCommand 0x14#8 arg) s s) ∧
    (s.ecode = 0#4 → arg ≠ 0#32 → Takes (mkCommand 0x14#8 arg) s (errorEntry 2#4 0x14#8 arg s)) ∧
    (s.ecode = 0#4 → s.inchunk = false → Takes (mkCommand 0x14#8 0#32) s (errorEntry 4#4 0x14#8 0#32 s)) ∧
    (s.ecode = 0#4 → s.inchunk = true → s.rem ≠ 0#32 →
      Takes (mkCommand 0x14#8 0#32) s (errorEntry 9#4 0x14#8 0#32 s)) ∧
    (s.ecode = 0#4 → s.inchunk = true → s.rem = 0#32 →
      let t := { s with
        trace := s.trace ++ (be32 (s.crc ^^^ 0xFFFFFFFF#32)).map .out, outcnt := s.outcnt + 4#32,
        inchunk := false }
      exec .chunkEnd s = .next t ∧ Takes (mkCommand 0x14#8 0#32) s t)

/-- spec/43_serializer.md R111. -/
def Obligations.SerByteFollowsItsRule : Prop :=
  ∀ (s : State) (arg : Word) (b : Byte),
    (s.ecode ≠ 0#4 → Takes (mkCommand 0x20#8 arg) s s) ∧
    (s.ecode = 0#4 → 0x100#32 ≤ arg → Takes (mkCommand 0x20#8 arg) s (errorEntry 2#4 0x20#8 arg s)) ∧
    (s.ecode = 0#4 → s.inchunk = true →
      Takes (mkCommand 0x20#8 (b.setWidth 32)) s (errorEntry 3#4 0x20#8 (b.setWidth 32) s)) ∧
    (s.ecode = 0#4 → s.inchunk = false →
      let t := { s with trace := s.trace ++ [.out b], outcnt := s.outcnt + 1#32 }
      exec (.serByte b) s = .next t ∧ Takes (mkCommand 0x20#8 (b.setWidth 32)) s t)

/-- spec/43_serializer.md R112, with R110's byte sequence written out. -/
def Obligations.SerBe32FollowsItsRule : Prop :=
  ∀ (s : State) (w : Word),
    (s.ecode ≠ 0#4 → Takes (mkCommand 0x21#8 w) s s) ∧
    (s.ecode = 0#4 → s.inchunk = true → Takes (mkCommand 0x21#8 w) s (errorEntry 3#4 0x21#8 w s)) ∧
    (s.ecode = 0#4 → s.inchunk = false →
      let t := { s with
        trace := s.trace ++ [.out (w.extractLsb' 24 8), .out (w.extractLsb' 16 8), .out (w.extractLsb' 8 8),
          .out (w.extractLsb' 0 8)],
        outcnt := s.outcnt + 4#32 }
      exec (.serBe32 w) s = .next t ∧ Takes (mkCommand 0x21#8 w) s t)

/-! The CRC function and the byte order -/

/-- spec/41_crc.md R80: the loop as the rule writes it, that it is the reflected form of 0x04C11DB7 absorbing a byte
least significant bit first, the initial value, and the final XOR. -/
def Obligations.CrcByteIsTheReflectedPolynomialStep : Prop :=
  (∀ (c : Word) (b : Byte),
    crcByte c b =
      (fun x : Word => if x.getLsbD 0 then (x >>> 1) ^^^ 0xEDB88320#32 else x >>> 1)^[8] (c ^^^ b.setWidth 32) ∧
    crcByte c b = (msbCrcBit^[8] (c.reverse ^^^ (b.reverse.setWidth 32 <<< 24))).reverse) ∧
  State.reset.crc = 0xFFFFFFFF#32 ∧
  (∀ bs : List Byte, crc32 bs = bs.foldl crcByte 0xFFFFFFFF#32 ^^^ 0xFFFFFFFF#32)

/-- spec/41_crc.md R81: the table form, with the rule's check entries. -/
def Obligations.CrcTableFormAgrees : Prop :=
  (∀ (c : Word) (b : Byte),
    crcByte c b = (c >>> 8) ^^^ crcByte 0#32 ((c ^^^ b.setWidth 32).extractLsb' 0 8)) ∧
  crcByte 0#32 0#8 = 0#32 ∧ crcByte 0#32 1#8 = 0x77073096#32 ∧ crcByte 0#32 128#8 = 0xEDB88320#32 ∧
  crcByte 0#32 255#8 = 0x2D02EF8D#32

/-- spec/43_serializer.md R110: `EmitBE32` is four `Emit`s, most significant byte first, and never absorbs. -/
def Obligations.EmitBe32IsFourEmits : Prop :=
  ∀ (w : Word) (s : State),
    emitBe32 w s =
      emit (w.extractLsb' 0 8) (emit (w.extractLsb' 8 8) (emit (w.extractLsb' 16 8) (emit (w.extractLsb' 24 8) s))) ∧
    emitBe32 w s = { s with trace := s.trace ++ (be32 w).map .out, outcnt := s.outcnt + 4#32 }

/-- spec/43_serializer.md R113: four bytes read big-endian give the word back. -/
def Obligations.BigEndianBytesGiveTheWordBack : Prop :=
  ∀ v : Word, ∃ b0 b1 b2 b3 : Byte, be32 v = [b0, b1, b2, b3] ∧
    v.toNat = b0.toNat * 2 ^ 24 + b1.toNat * 2 ^ 16 + b2.toNat * 2 ^ 8 + b3.toNat

/-! Laws of command sequences -/

/-- The derived clauses of spec/41_crc.md R84, spec/42_chunk.md R95 and spec/43_serializer.md R112: a word command has
exactly the effect of the four byte commands of its bytes in order. -/
def Obligations.WordCommandsEqualFourByteCommands : Prop :=
  ∀ (s : State) (w : Word) (one : Byte → Instr) (four : Instr), s.ecode = 0#4 →
    ((one = .crcByte ∧ four = .crcWord w ∧ s.inchunk = false) ∨
     (one = .serByte ∧ four = .serBe32 w ∧ s.inchunk = false) ∨
     (one = .chunkData ∧ four = .chunkData4 w ∧ s.inchunk = true ∧ 4#32 ≤ s.rem)) →
    ∃ t : State, RunsTo [four] s { t with pos := s.pos + 1 } ∧
      RunsTo [one (w.extractLsb' 24 8), one (w.extractLsb' 16 8), one (w.extractLsb' 8 8), one (w.extractLsb' 0 8)] s
        { t with pos := s.pos + 4 } ∧
      t.ecode = 0#4

/-- spec/20_memory.md R48: RDREG twice, with no command between, returns the same word twice and changes nothing
else. -/
def Obligations.RepeatedRdregReturnsTheSameWord : Prop :=
  ∀ (s : State) (n : Word), n < 8#32 → ∃ v,
    RunsTo [.rdreg n, .rdreg n] s { s with trace := s.trace ++ [.resp v, .resp v], pos := s.pos + 2 }

/-- spec/41_crc.md R86: CRC.INIT, commands absorbing exactly the bytes `cs` carry, CRC.EMIT. -/
def Obligations.StandaloneCrcEmitsTheCrcOfTheBytes : Prop :=
  ∀ (s : State) (cs : List Instr), s.ecode = 0#4 → s.inchunk = false → (∀ i ∈ cs, crcPhase i = true) →
    let bytes := cs.flatMap absorbedBy
    RunsTo (.crcInit :: cs ++ [.crcEmit]) s
      { s with
        crc := crc32 bytes ^^^ 0xFFFFFFFF#32, trace := s.trace ++ (be32 (crc32 bytes)).map .out,
        outcnt := s.outcnt + 4#32, pos := s.pos + cs.length + 2 }

/-- spec/42_chunk.md R97, R90: from any idle state without an error, CHUNK.LEN, CHUNK.TYPE, content commands carrying
exactly the declared number of bytes, CHUNK.END, with NOP and RDREG anywhere between, append exactly the chunk's bytes
to OUT and end in idle mode without an error. -/
def Obligations.FramedChunkIsExactlyItsLayout : Prop :=
  ∀ (s : State) (w t : Word) (q cs : List Instr), s.ecode = 0#4 → s.inchunk = false →
    w ≤ 0x7FFFFFFF#32 → LetterTag t →
    (∀ i ∈ q, quiet i = true) → (∀ i ∈ cs, contentPhase i = true) →
    let content := cs.flatMap contentOf
    content.length = w.toNat →
    ∃ u, RunsTo (.chunkLen w :: q ++ .chunkType t :: cs ++ [.chunkEnd]) s u ∧
      u.out = s.out ++ (be32 w ++ be32 t ++ content ++ be32 (crc32 (be32 t ++ content))) ∧
      chunkLayout t content = be32 w ++ be32 t ++ content ++ be32 (crc32 (be32 t ++ content)) ∧
      (chunkLayout t content).length = 12 + content.length ∧
      u.ecode = 0#4 ∧ u.inchunk = false ∧ u.rem = 0#32 ∧ u.lv = false ∧ u.len = w ∧ u.type = t ∧
      u.crc = crc32 (be32 t ++ content) ^^^ 0xFFFFFFFF#32 ∧
      ((∀ i ∈ q ++ cs, isRdreg i = false) → u.resp = s.resp)

/-- spec/10_state.md R25, spec/42_chunk.md R94 to R96: in chunk mode a command that raises no error takes exactly its
content bytes off the bytes still due, or ends a chunk of which nothing is due, or is CLEAR. -/
def Obligations.ContentIsCountedToTheDeclaredLength : Prop :=
  ∀ (s t : State) (i : Instr), s.inchunk = true → exec i s = .next t → t.ecode = 0#4 →
    (t.inchunk = true ∧ t.rem.toNat + (contentOf i).length = s.rem.toNat) ∨
    (i = .chunkEnd ∧ s.rem = 0#32 ∧ t.rem = 0#32 ∧ t.inchunk = false) ∨ i = .clear

/-- spec/30_encoding.md R68: the three byte-list pseudo-instructions expand to commands that carry exactly the listed
bytes in the listed order, four at a time and then one at a time. -/
def Obligations.PseudoInstructionsCarryTheListedBytes : Prop :=
  ∀ bs : List Byte,
    (pseudoChunkBytes bs).flatMap contentOf = bs ∧ (pseudoCrcBytes bs).flatMap absorbedBy = bs ∧
    (pseudoSerBytes bs).flatMap serializedBy = bs ∧
    (pseudoChunkBytes bs).length = bs.length / 4 + bs.length % 4 ∧
    (∀ i ∈ pseudoChunkBytes bs, contentPhase i = true) ∧ (∀ i ∈ pseudoCrcBytes bs, crcPhase i = true) ∧
    pseudoSerSignature.flatMap serializedBy = [0x89#8, 0x50#8, 0x4E#8, 0x47#8, 0x0D#8, 0x0A#8, 0x1A#8, 0x0A#8]

/-- spec/30_encoding.md R67: a number outside its field's range is an assembly error, never truncated, and one inside
it is the operand's value. -/
def Obligations.AssemblerNeverTruncates : Prop :=
  ∀ (cs : List Char) (n : Nat), numberOf cs = some n →
    ((asmByte (.bare cs)).map BitVec.toNat = if n ≤ 255 then some n else none) ∧
    ((asmWord (.bare cs)).map BitVec.toNat = if n ≤ 0xFFFFFFFF then some n else none)
end

