-- ==== Sys2Proof/Laws/Decode.lean ====
section
/-! SUPPORT. The fields of a command word, and the opcode map read one row at a time. -/

namespace Sys2Proof

@[simp] theorem cmdOp_mkCommand (op : Byte) (arg : Word) : cmdOp (mkCommand op arg) = op := by
  apply BitVec.eq_of_getLsbD_eq
  intro i hi
  simp only [cmdOp, mkCommand, BitVec.getLsbD_extractLsb', BitVec.getLsbD_append]
  simp [hi]

@[simp] theorem cmdArg_mkCommand (op : Byte) (arg : Word) : cmdArg (mkCommand op arg) = arg := by
  apply BitVec.eq_of_getLsbD_eq
  intro i hi
  simp only [cmdArg, mkCommand, BitVec.getLsbD_extractLsb', BitVec.getLsbD_append]
  simp [hi]

/-- A word is its opcode byte and its argument (R60). -/
theorem mkCommand_op_arg (cmd : Command) : mkCommand (cmdOp cmd) (cmdArg cmd) = cmd := by
  apply BitVec.eq_of_getLsbD_eq
  intro i hi
  simp only [cmdOp, cmdArg, mkCommand, BitVec.getLsbD_extractLsb', BitVec.getLsbD_append]
  by_cases h : i < 32
  · simp [h]
  · have h' : i - 32 < 8 := by omega
    have h'' : 32 + (i - 32) = i := by omega
    simp [h, h', h'']

@[simp] theorem cmdOp_encode (i : Instr) : cmdOp (encode i) = i.op := cmdOp_mkCommand _ _

@[simp] theorem cmdArg_encode (i : Instr) : cmdArg (encode i) = i.arg := cmdArg_mkCommand _ _

@[simp] theorem argByte_setWidth (b : Byte) : argByte (b.setWidth 32) = b := by
  apply BitVec.eq_of_getLsbD_eq
  intro i hi
  simp only [argByte, BitVec.getLsbD_extractLsb', BitVec.getLsbD_setWidth]
  have : i < 32 := by omega
  simp [hi, this]

/-- A form-B argument with its reserved bits 0 is its byte (R61). -/
theorem setWidth_argByte {arg : Word} (h : reservedZero .B arg = true) : (argByte arg).setWidth 32 = arg := by
  apply BitVec.eq_of_getLsbD_eq
  intro i hi
  simp only [argByte, BitVec.getLsbD_setWidth, BitVec.getLsbD_extractLsb']
  by_cases h8 : i < 8
  · simp [h8, hi]
  · simp only [reservedZero, beq_iff_eq] at h
    have := congrArg (fun v : BitVec 24 => v.getLsbD (i - 8)) h
    simp only [BitVec.getLsbD_extractLsb', BitVec.getLsbD_zero] at this
    have h24 : i - 8 < 24 := by omega
    have hi' : 8 + (i - 8) = i := by omega
    simp only [h24, hi', decide_true, Bool.true_and] at this
    simp [h8, this]

@[simp] theorem reservedZero_setWidth (b : Byte) : reservedZero .B (b.setWidth 32) = true := by
  simp only [reservedZero, beq_iff_eq]
  apply BitVec.eq_of_getLsbD_eq
  intro i hi
  simp only [BitVec.getLsbD_extractLsb', BitVec.getLsbD_setWidth, BitVec.getLsbD_zero]
  simp

/-- Form N's check with the parameter's value in place (R34, R61). -/
theorem reservedZero_N (arg : Word) : reservedZero .N arg = decide (arg < 8#32) := rfl

/-- RDREG's check with the parameter's value in place (R34, R61). -/
@[simp] theorem wellFormed_rdreg (n : Word) : (Instr.rdreg n).wellFormed = decide (n < 8#32) := rfl

/-- A row found for an opcode byte is a row of the map, for that byte. -/
theorem rowOf_some {op : Byte} {r : OpRow} (h : rowOf op = some r) : r ∈ opTable ∧ r.op = op := by
  refine ⟨List.mem_of_find?_eq_some h, ?_⟩
  have := List.find?_some h
  simpa using this

/-- Decoding a word given by its two fields. -/
theorem decode_mkCommand (op : Byte) (arg : Word) : decode (mkCommand op arg) =
    match rowOf op with
    | none => .error .illegalOp
    | some r => if reservedZero r.form arg then .ok (r.build arg) else .error .reservedArg := by
  cases h : rowOf op <;> simp [decode, h]

/-- What an accepted word says: its opcode has a row, its reserved bits are 0, and the row builds the command. -/
theorem decode_ok {cmd : Command} {i : Instr} (h : decode cmd = .ok i) :
    ∃ r ∈ opTable, r.op = cmdOp cmd ∧ reservedZero r.form (cmdArg cmd) = true ∧ r.build (cmdArg cmd) = i := by
  unfold decode at h
  split at h
  · cases h
  · rename_i r hr
    split at h
    · rename_i hz
      obtain ⟨hm, ho⟩ := rowOf_some hr
      exact ⟨r, hm, ho, hz, by simpa using h⟩
    · cases h

end Sys2Proof
end

