-- ==== Sys2Proof/Laws/State.lean ====
section
/-! SUPPORT. One lemma per field per named update of State, and the whole update of each byte-sequence operation as one
record, so that no later proof unfolds an operation. -/

namespace Sys2Proof.Machine

variable (b : Byte) (bs : List Byte) (w : Word) (e : ErrCode) (cmd : Command) (s : State)

/-! `emit` writes `trace` and `outcnt`. -/

@[simp] theorem emit_trace : (emit b s).trace = s.trace ++ [.out b] := rfl
@[simp] theorem emit_outcnt : (emit b s).outcnt = s.outcnt + 1#32 := rfl
@[simp] theorem emit_crc : (emit b s).crc = s.crc := rfl
@[simp] theorem emit_len : (emit b s).len = s.len := rfl
@[simp] theorem emit_lv : (emit b s).lv = s.lv := rfl
@[simp] theorem emit_inchunk : (emit b s).inchunk = s.inchunk := rfl
@[simp] theorem emit_rem : (emit b s).rem = s.rem := rfl
@[simp] theorem emit_type : (emit b s).type = s.type := rfl
@[simp] theorem emit_ecode : (emit b s).ecode = s.ecode := rfl
@[simp] theorem emit_eop : (emit b s).eop = s.eop := rfl
@[simp] theorem emit_earg : (emit b s).earg = s.earg := rfl
@[simp] theorem emit_pos : (emit b s).pos = s.pos := rfl
@[simp] theorem emit_port : (emit b s).port = s.port := rfl
@[simp] theorem emit_outTaken : (emit b s).outTaken = s.outTaken := rfl
@[simp] theorem emit_respTaken : (emit b s).respTaken = s.respTaken := rfl

/-! `respond` writes `trace`. -/

@[simp] theorem respond_trace : (respond w s).trace = s.trace ++ [.resp w] := rfl
@[simp] theorem respond_outcnt : (respond w s).outcnt = s.outcnt := rfl
@[simp] theorem respond_crc : (respond w s).crc = s.crc := rfl
@[simp] theorem respond_len : (respond w s).len = s.len := rfl
@[simp] theorem respond_lv : (respond w s).lv = s.lv := rfl
@[simp] theorem respond_inchunk : (respond w s).inchunk = s.inchunk := rfl
@[simp] theorem respond_rem : (respond w s).rem = s.rem := rfl
@[simp] theorem respond_type : (respond w s).type = s.type := rfl
@[simp] theorem respond_ecode : (respond w s).ecode = s.ecode := rfl
@[simp] theorem respond_eop : (respond w s).eop = s.eop := rfl
@[simp] theorem respond_earg : (respond w s).earg = s.earg := rfl
@[simp] theorem respond_pos : (respond w s).pos = s.pos := rfl
@[simp] theorem respond_port : (respond w s).port = s.port := rfl
@[simp] theorem respond_outTaken : (respond w s).outTaken = s.outTaken := rfl
@[simp] theorem respond_respTaken : (respond w s).respTaken = s.respTaken := rfl

/-! `absorb` writes `crc`. -/

@[simp] theorem absorb_crc : (absorb bs s).crc = crcFold s.crc bs := rfl
@[simp] theorem absorb_trace : (absorb bs s).trace = s.trace := rfl
@[simp] theorem absorb_outcnt : (absorb bs s).outcnt = s.outcnt := rfl
@[simp] theorem absorb_len : (absorb bs s).len = s.len := rfl
@[simp] theorem absorb_lv : (absorb bs s).lv = s.lv := rfl
@[simp] theorem absorb_inchunk : (absorb bs s).inchunk = s.inchunk := rfl
@[simp] theorem absorb_rem : (absorb bs s).rem = s.rem := rfl
@[simp] theorem absorb_type : (absorb bs s).type = s.type := rfl
@[simp] theorem absorb_ecode : (absorb bs s).ecode = s.ecode := rfl
@[simp] theorem absorb_eop : (absorb bs s).eop = s.eop := rfl
@[simp] theorem absorb_earg : (absorb bs s).earg = s.earg := rfl
@[simp] theorem absorb_pos : (absorb bs s).pos = s.pos := rfl
@[simp] theorem absorb_port : (absorb bs s).port = s.port := rfl
@[simp] theorem absorb_outTaken : (absorb bs s).outTaken = s.outTaken := rfl
@[simp] theorem absorb_respTaken : (absorb bs s).respTaken = s.respTaken := rfl

/-! `raiseErr` writes `ecode`, `eop` and `earg` (R135). -/

@[simp] theorem raiseErr_ecode : (raiseErr e cmd s).ecode = e.bits := rfl
@[simp] theorem raiseErr_eop : (raiseErr e cmd s).eop = cmdOp cmd := rfl
@[simp] theorem raiseErr_earg : (raiseErr e cmd s).earg = cmdArg cmd := rfl
@[simp] theorem raiseErr_crc : (raiseErr e cmd s).crc = s.crc := rfl
@[simp] theorem raiseErr_len : (raiseErr e cmd s).len = s.len := rfl
@[simp] theorem raiseErr_lv : (raiseErr e cmd s).lv = s.lv := rfl
@[simp] theorem raiseErr_inchunk : (raiseErr e cmd s).inchunk = s.inchunk := rfl
@[simp] theorem raiseErr_rem : (raiseErr e cmd s).rem = s.rem := rfl
@[simp] theorem raiseErr_type : (raiseErr e cmd s).type = s.type := rfl
@[simp] theorem raiseErr_outcnt : (raiseErr e cmd s).outcnt = s.outcnt := rfl
@[simp] theorem raiseErr_trace : (raiseErr e cmd s).trace = s.trace := rfl
@[simp] theorem raiseErr_pos : (raiseErr e cmd s).pos = s.pos := rfl
@[simp] theorem raiseErr_port : (raiseErr e cmd s).port = s.port := rfl
@[simp] theorem raiseErr_outTaken : (raiseErr e cmd s).outTaken = s.outTaken := rfl
@[simp] theorem raiseErr_respTaken : (raiseErr e cmd s).respTaken = s.respTaken := rfl

/-! `clearRegs` writes every register (R37). -/

@[simp] theorem clearRegs_crc : (clearRegs s).crc = 0xFFFFFFFF#32 := rfl
@[simp] theorem clearRegs_len : (clearRegs s).len = 0#32 := rfl
@[simp] theorem clearRegs_lv : (clearRegs s).lv = false := rfl
@[simp] theorem clearRegs_inchunk : (clearRegs s).inchunk = false := rfl
@[simp] theorem clearRegs_rem : (clearRegs s).rem = 0#32 := rfl
@[simp] theorem clearRegs_type : (clearRegs s).type = 0#32 := rfl
@[simp] theorem clearRegs_ecode : (clearRegs s).ecode = 0#4 := rfl
@[simp] theorem clearRegs_eop : (clearRegs s).eop = 0#8 := rfl
@[simp] theorem clearRegs_earg : (clearRegs s).earg = 0#32 := rfl
@[simp] theorem clearRegs_outcnt : (clearRegs s).outcnt = 0#32 := rfl
@[simp] theorem clearRegs_trace : (clearRegs s).trace = s.trace := rfl
@[simp] theorem clearRegs_pos : (clearRegs s).pos = s.pos := rfl
@[simp] theorem clearRegs_port : (clearRegs s).port = s.port := rfl
@[simp] theorem clearRegs_outTaken : (clearRegs s).outTaken = s.outTaken := rfl
@[simp] theorem clearRegs_respTaken : (clearRegs s).respTaken = s.respTaken := rfl

/-! The byte-sequence operations as one record update each. -/

theorem crcFold_append (c : Word) (bs cs : List Byte) : crcFold c (bs ++ cs) = crcFold (crcFold c bs) cs :=
  List.foldl_append

theorem emitBytes_eq : emitBytes bs s =
    { s with trace := s.trace ++ bs.map .out, outcnt := s.outcnt + BitVec.ofNat 32 bs.length } := by
  induction bs generalizing s with
  | nil => simp [emitBytes]
  | cons b bs ih =>
    have := ih (emit b s)
    simp only [emitBytes, List.foldl_cons] at this ⊢
    rw [this]
    simp [emit, BitVec.ofNat_add, add_comm, add_left_comm]

theorem emitBe32_eq : emitBe32 w s =
    { s with trace := s.trace ++ (be32 w).map .out, outcnt := s.outcnt + 4#32 } :=
  emitBytes_eq (be32 w) s

theorem sendContent_eq : sendContent bs s =
    { s with trace := s.trace ++ bs.map .out, outcnt := s.outcnt + BitVec.ofNat 32 bs.length,
             crc := crcFold s.crc bs } := by
  induction bs generalizing s with
  | nil => simp [sendContent, crcFold]
  | cons b bs ih =>
    have := ih (absorb [b] (emit b s))
    simp only [sendContent, List.foldl_cons] at this ⊢
    rw [this]
    simp [emit, absorb, crcFold, BitVec.ofNat_add, add_comm, add_left_comm]

end Sys2Proof.Machine
end

