-- ==== Sys2Proof/Laws/Ops.lean ====
section
/-! SUPPORT. What each shared operation can do, said once: the prologue `perform`, the mode check, the CRC function's
linearity, the projections of a trace. -/

namespace Sys2Proof.Machine

/-! The prologue -/

/-- Everything `perform` can do: it always answers a next state, and that state is the error entry, the performed
command, or (discarded) the state before. -/
theorem perform_cases (i : Instr) (own : Option ErrCode) (done s : State) :
    (∃ e, s.ecode = 0#4 ∧ firstError i own s = some e ∧ perform i own done s = .next (raiseErr e (encode i) s)) ∨
    (s.ecode = 0#4 ∧ firstError i own s = none ∧ perform i own done s = .next done) ∨
    (s.ecode ≠ 0#4 ∧ isControl i = true ∧ i.wellFormed = true ∧ perform i own done s = .next done) ∨
    (s.ecode ≠ 0#4 ∧ (isControl i && i.wellFormed) = false ∧ perform i own done s = .next s) := by
  unfold perform
  by_cases h : s.ecode = 0#4
  · cases hf : firstError i own s with
    | some e => exact .inl ⟨e, h, rfl, by simp [h]⟩
    | none => exact .inr (.inl ⟨h, rfl, by simp [h]⟩)
  · cases hc : isControl i && i.wellFormed with
    | true =>
      have := Bool.and_eq_true_iff.mp hc
      exact .inr (.inr (.inl ⟨h, this.1, this.2, by simp [h]⟩))
    | false => exact .inr (.inr (.inr ⟨h, rfl, by simp [h]⟩))

/-- In normal state a command without an error is performed. -/
theorem perform_done {i : Instr} {own : Option ErrCode} {done s : State} (h : s.ecode = 0#4)
    (hf : firstError i own s = none) : perform i own done s = .next done := by
  simp [perform, h, hf]

/-- In normal state a command with an error enters the error state. -/
theorem perform_err {i : Instr} {own : Option ErrCode} {done s : State} {e : ErrCode} (h : s.ecode = 0#4)
    (hf : firstError i own s = some e) : perform i own done s = .next (raiseErr e (encode i) s) := by
  simp [perform, h, hf]

/-- In the error state a command that is not a well-formed control command is discarded (R132). -/
theorem perform_discard {i : Instr} {own : Option ErrCode} {done s : State} (h : s.ecode ≠ 0#4)
    (hc : (isControl i && i.wellFormed) = false) : perform i own done s = .next s := by
  simp [perform, h, hc]

/-- In the error state a well-formed control command is performed (R132). -/
theorem perform_control {i : Instr} {own : Option ErrCode} {done s : State} (h : s.ecode ≠ 0#4)
    (hc : isControl i = true) (hw : i.wellFormed = true) : perform i own done s = .next done := by
  simp [perform, h, hc, hw]

/-- Every code of R130 is in 1 to 9. -/
theorem ErrCode.bits_range (e : ErrCode) : e.bits ≠ 0#4 ∧ e.bits ≤ 9#4 := by
  cases e <;> decide

/-! CRC-32 -/

theorem crcBit_xor (x y : Word) : crcBit (x ^^^ y) = crcBit x ^^^ crcBit y := by
  unfold crcBit
  rw [BitVec.getLsbD_xor, BitVec.ushiftRight_xor_distrib]
  cases x.getLsbD 0 <;> cases y.getLsbD 0 <;>
    · apply BitVec.eq_of_getLsbD_eq
      intro i _
      simp [Bool.xor_comm, Bool.xor_left_comm]

/-- The loop of R80 is linear over GF(2): the fact R81 rests on. -/
theorem crcBits_xor (n : Nat) (x y : Word) : crcBits n (x ^^^ y) = crcBits n x ^^^ crcBits n y := by
  induction n generalizing x y with
  | zero => rfl
  | succ n ih => simp only [crcBits, crcBit_xor, ih]

/-- Where the low `n` bits are 0 the loop only shifts. -/
theorem crcBits_of_low_zero (n : Nat) (x : Word) (h : ∀ i < n, x.getLsbD i = false) :
    crcBits n x = x >>> n := by
  induction n generalizing x with
  | zero => simp [crcBits]
  | succ n ih =>
    have h0 : crcBit x = x >>> 1 := by rw [crcBit, h 0 (by omega)]; rfl
    rw [crcBits, h0, ih, ← BitVec.shiftRight_add, Nat.add_comm]
    intro i hi
    simpa [Nat.add_comm] using h (i + 1) (by omega)

/-! Traces -/

theorem outBytes_append (es fs : List Event) : outBytes (es ++ fs) = outBytes es ++ outBytes fs := by
  induction es with
  | nil => rfl
  | cons e es ih => cases e <;> simp [outBytes, ih]

theorem respWords_append (es fs : List Event) : respWords (es ++ fs) = respWords es ++ respWords fs := by
  induction es with
  | nil => rfl
  | cons e es ih => cases e <;> simp [respWords, ih]

@[simp] theorem outBytes_map_out (bs : List Byte) : outBytes (bs.map .out) = bs := by
  induction bs with
  | nil => rfl
  | cons b bs ih => simp [outBytes, ih]

@[simp] theorem respWords_map_out (bs : List Byte) : respWords (bs.map .out) = [] := by
  induction bs with
  | nil => rfl
  | cons b bs ih => simp [respWords, ih]

@[simp] theorem be32_length (w : Word) : (be32 w).length = 4 := rfl

/-- The registers a number names (R34): a value exactly for 0 to 7. -/
theorem readReg_isSome (n : Word) (s : State) : (readReg n s).isSome = decide (n < 8#32) := by
  by_cases h : n < 8#32
  · have : n = 0#32 ∨ n = 1#32 ∨ n = 2#32 ∨ n = 3#32 ∨ n = 4#32 ∨ n = 5#32 ∨ n = 6#32 ∨ n = 7#32 := by
      bv_omega
    rcases this with h | h | h | h | h | h | h | h <;> subst h <;> rfl
  · have : n ≠ 0#32 ∧ n ≠ 1#32 ∧ n ≠ 2#32 ∧ n ≠ 3#32 ∧ n ≠ 4#32 ∧ n ≠ 5#32 ∧ n ≠ 6#32 ∧ n ≠ 7#32 := by
      refine ⟨?_, ?_, ?_, ?_, ?_, ?_, ?_, ?_⟩ <;> (intro e; subst e; exact h (by decide))
    simp [readReg, this, h]

end Sys2Proof.Machine
end

