-- ==== Sys2Proof/Laws/PerInstr.lean ====
section
/-! SUPPORT. The statement made once per command: the opcode map has a row for it, that row builds the command from its
own argument word, and the row's reserved bits are 0 exactly where the command is well-formed (spec/30_encoding.md
R61, R62, R65). -/

namespace Sys2Proof.Laws.Encoding

def Statement (i : Instr) : Prop :=
  ∃ r, rowOf i.op = some r ∧ r.build i.arg = i ∧ reservedZero r.form i.arg = i.wellFormed

theorem nop : Statement .nop := ⟨_, rfl, rfl, rfl⟩
theorem crcInit : Statement .crcInit := ⟨_, rfl, rfl, rfl⟩
theorem crcByte (b : Byte) : Statement (.crcByte b) :=
  ⟨_, rfl, congrArg Instr.crcByte (argByte_setWidth b), reservedZero_setWidth b⟩
theorem crcWord (w : Word) : Statement (.crcWord w) := ⟨_, rfl, rfl, rfl⟩
theorem crcEmit : Statement .crcEmit := ⟨_, rfl, rfl, rfl⟩
theorem chunkLen (w : Word) : Statement (.chunkLen w) := ⟨_, rfl, rfl, rfl⟩
theorem chunkType (w : Word) : Statement (.chunkType w) := ⟨_, rfl, rfl, rfl⟩
theorem chunkData (b : Byte) : Statement (.chunkData b) :=
  ⟨_, rfl, congrArg Instr.chunkData (argByte_setWidth b), reservedZero_setWidth b⟩
theorem chunkData4 (w : Word) : Statement (.chunkData4 w) := ⟨_, rfl, rfl, rfl⟩
theorem chunkEnd : Statement .chunkEnd := ⟨_, rfl, rfl, rfl⟩
theorem serByte (b : Byte) : Statement (.serByte b) :=
  ⟨_, rfl, congrArg Instr.serByte (argByte_setWidth b), reservedZero_setWidth b⟩
theorem serBe32 (w : Word) : Statement (.serBe32 w) := ⟨_, rfl, rfl, rfl⟩
theorem rdreg (n : Word) : Statement (.rdreg n) := ⟨_, rfl, rfl, rfl⟩
theorem clear : Statement .clear := ⟨_, rfl, rfl, rfl⟩

end Sys2Proof.Laws.Encoding
end

