-- ==== Sys2Proof/Laws/Step.lean ====
section
/-! SUPPORT. What a step and a meaning can do: one equation per move at the ports, and
everything a command can do, said once. -/

namespace Sys2Proof.Machine

theorem step_waits {s : State} (h : s.port = []) : step s = .next s := by
  simp [step, hostStep, h]

theorem step_offer (s : State) (cmd : Command) (rest : List HostMove) :
    step { s with port := .offer cmd :: rest } = offerStep cmd rest { s with port := .offer cmd :: rest } := rfl

theorem step_offer_stalled {s : State} (h : portStalled s = true) (cmd : Command) (rest : List HostMove) :
    step { s with port := .offer cmd :: rest } = .next { s with port := .offer cmd :: rest } :=
  if_pos (c := portStalled s = true) h

theorem step_offer_ready {s : State} (h : portStalled s = false) (cmd : Command) (rest : List HostMove) :
    step { s with port := .offer cmd :: rest } = takeCommand cmd { s with port := rest } :=
  if_neg (c := portStalled s = true) (by simp [h])

theorem step_takeOut (s : State) (rest : List HostMove) :
    step { s with port := .takeOut :: rest } =
      if s.outWaiting = 0 then .next { s with port := .takeOut :: rest }
      else .next { s with port := rest, outTaken := s.outTaken + 1 } := rfl

theorem step_takeResp (s : State) (rest : List HostMove) :
    step { s with port := .takeResp :: rest } =
      if s.respWaiting = 0 then .next { s with port := .takeResp :: rest }
      else .next { s with port := rest, respTaken := s.respTaken + 1 } := rfl

theorem step_rst (s : State) (rest : List HostMove) :
    step { s with port := .rst :: rest } = .next (clearRegs { s with port := rest }) := rfl

theorem step_rstDuring (s : State) (cmd : Command) (rest : List HostMove) :
    step { s with port := .rstDuring cmd :: rest } =
      if portStalled s then .next (clearRegs { s with port := rest })
      else takeCommandCut cmd { s with port := rest } := rfl

/-! Room at the ports -/

@[simp] theorem noRoom_zero (depth : Nat) : noRoom depth 0 = false := rfl

theorem noRoom_iff (depth waiting : Nat) : noRoom depth waiting = true ↔ waiting ≠ 0 ∧ depth ≤ waiting := by
  simp [noRoom]

/-- Where the host has drained both streams the port is not stalled. -/
theorem portStalled_drained {s : State} (ho : s.outWaiting = 0) (hr : s.respWaiting = 0) : portStalled s = false := by
  simp [portStalled, ho, hr]

theorem portStalled_makeRoom (s : State) : portStalled (makeRoom s) = false := by
  unfold makeRoom
  split
  · exact portStalled_drained (Nat.sub_self _) (Nat.sub_self _)
  · simpa using ‹¬ portStalled s = true›

/-- The step after `withFetchWord` takes that word. -/
theorem step_withFetchWord (s : State) (nbits w : Nat) :
    step (s.withFetchWord nbits w) =
      takeCommand (BitVec.ofNat 40 (w % 2 ^ nbits)) { makeRoom s with port := s.port } :=
  step_offer_ready (portStalled_makeRoom s) _ _

/-- The result of a command's own checks (R91, R92, R94 to R96). -/
def ownError (i : Instr) (s : State) : Option ErrCode :=
  match i with
  | .nop => none
  | .crcInit => none
  | .crcByte _ => none
  | .crcWord _ => none
  | .crcEmit => none
  | .chunkLen w => chunkLenError w
  | .chunkType w => chunkTypeError w s
  | .chunkData _ => contentError 1#32 s
  | .chunkData4 _ => contentError 4#32 s
  | .chunkEnd => chunkEndError s
  | .serByte _ => none
  | .serBe32 _ => none
  | .rdreg _ => none
  | .clear => none

/-- The state a command's effects lead to where it is performed, each as one record update. -/
def performed (i : Instr) (s : State) : State :=
  match i with
  | .nop => s
  | .crcInit => { s with crc := 0xFFFFFFFF#32 }
  | .crcByte b => { s with crc := crcByte s.crc b }
  | .crcWord w => { s with crc := crcFold s.crc (be32 w) }
  | .crcEmit => { s with trace := s.trace ++ (be32 (crcFinal s.crc)).map .out, outcnt := s.outcnt + 4#32 }
  | .chunkLen w => { s with len := w, lv := true }
  | .chunkType w =>
    { s with
      trace := s.trace ++ (be32 s.len ++ be32 w).map .out, outcnt := s.outcnt + 8#32,
      crc := crcFold 0xFFFFFFFF#32 (be32 w), type := w, rem := s.len, lv := false, inchunk := true }
  | .chunkData b =>
    { s with trace := s.trace ++ [.out b], outcnt := s.outcnt + 1#32, crc := crcByte s.crc b, rem := s.rem - 1#32 }
  | .chunkData4 w =>
    { s with
      trace := s.trace ++ (be32 w).map .out, outcnt := s.outcnt + 4#32, crc := crcFold s.crc (be32 w),
      rem := s.rem - 4#32 }
  | .chunkEnd =>
    { s with trace := s.trace ++ (be32 (crcFinal s.crc)).map .out, outcnt := s.outcnt + 4#32, inchunk := false }
  | .serByte b => { s with trace := s.trace ++ [.out b], outcnt := s.outcnt + 1#32 }
  | .serBe32 w => { s with trace := s.trace ++ (be32 w).map .out, outcnt := s.outcnt + 4#32 }
  | .rdreg n => { s with trace := s.trace ++ ((readReg n s).map Event.resp).toList }
  | .clear => clearRegs s

/-- Every meaning is the prologue over the command's own checks and its effects. -/
theorem exec_eq_perform (i : Instr) (s : State) : exec i s = perform i (ownError i s) (performed i s) s := by
  cases i with
  | crcEmit => simp only [exec, execCrcEmit, emitBe32_eq, performed, ownError]
  | chunkType w =>
    simp [exec, execChunkType, startChunk, emitBe32_eq, absorb, performed, ownError, Config.crcInit,
      BitVec.add_assoc]
  | chunkData b =>
    simp only [exec, execChunkData, sendContent_eq, performed, ownError]
    rfl
  | chunkData4 w =>
    simp only [exec, execChunkData4, sendContent_eq, performed, ownError]
    rfl
  | chunkEnd => simp only [exec, execChunkEnd, emitBe32_eq, performed, ownError]
  | serBe32 w => simp only [exec, execSerBe32, emitBe32_eq, performed, ownError]
  | rdreg n =>
    simp only [exec, execRdreg, answerReg, performed, ownError]
    cases readReg n s <;> simp [respond]
  | nop => rfl
  | crcInit => rfl
  | crcByte b => rfl
  | crcWord w => rfl
  | chunkLen w => rfl
  | serByte b => rfl
  | clear => rfl

/-- Everything a command can do: raise its first error in normal state, be performed, or be discarded in the error
state. -/
theorem exec_cases {i : Instr} {s t : State} (h : exec i s = .next t) :
    (∃ e, s.ecode = 0#4 ∧ firstError i (ownError i s) s = some e ∧ t = raiseErr e (encode i) s) ∨
    (s.ecode = 0#4 ∧ firstError i (ownError i s) s = none ∧ t = performed i s) ∨
    (s.ecode ≠ 0#4 ∧ isControl i = true ∧ i.wellFormed = true ∧ t = performed i s) ∨
    (s.ecode ≠ 0#4 ∧ (isControl i && i.wellFormed) = false ∧ t = s) := by
  rw [exec_eq_perform] at h
  rcases perform_cases i (ownError i s) (performed i s) s with ⟨e, h0, he, hp⟩ | ⟨h0, he, hp⟩ | ⟨h0, hc, hw, hp⟩ | ⟨h0, hc, hp⟩ <;>
    rw [hp] at h <;> injection h with h <;> subst h
  · exact .inl ⟨e, h0, he, rfl⟩
  · exact .inr (.inl ⟨h0, he, rfl⟩)
  · exact .inr (.inr (.inl ⟨h0, hc, hw, rfl⟩))
  · exact .inr (.inr (.inr ⟨h0, hc, rfl⟩))

/-- Every meaning answers a next state: no command stops the block. -/
theorem exec_next (i : Instr) (s : State) : ∃ t, exec i s = .next t := by
  rw [exec_eq_perform]
  rcases perform_cases i (ownError i s) (performed i s) s with ⟨_, _, _, h⟩ | ⟨_, _, h⟩ | ⟨_, _, _, h⟩ | ⟨_, _, h⟩ <;>
    exact ⟨_, h⟩

/-! What a command never touches -/

/-- A command neither reads nor writes the position, what the host has drained, or the moves to come. -/
theorem exec_ports {i : Instr} {s t : State} (h : exec i s = .next t) (q a b : Nat) (p : List HostMove) :
    exec i { s with pos := q, outTaken := a, respTaken := b, port := p } =
      .next { t with pos := q, outTaken := a, respTaken := b, port := p } := by
  have hp : performed i { s with pos := q, outTaken := a, respTaken := b, port := p } =
      { performed i s with pos := q, outTaken := a, respTaken := b, port := p } := by cases i <;> rfl
  have ho : ownError i { s with pos := q, outTaken := a, respTaken := b, port := p } = ownError i s := by
    cases i <;> rfl
  rw [exec_eq_perform, hp, ho]
  rcases exec_cases h with ⟨e, h0, he, rfl⟩ | ⟨h0, he, rfl⟩ | ⟨h0, hc, hw, rfl⟩ | ⟨h0, hc, rfl⟩
  · exact perform_err h0 he
  · exact perform_done h0 he
  · exact perform_control h0 hc hw
  · exact perform_discard h0 hc

/-- The events a performed command adds. -/
theorem performed_trace (i : Instr) (s : State) : ∃ evs, (performed i s).trace = s.trace ++ evs := by
  cases i <;> simp [performed]

/-- A command only adds events, and leaves the position, what the host has drained and the moves to come. -/
theorem exec_keeps {i : Instr} {s t : State} (h : exec i s = .next t) :
    (∃ evs, t.trace = s.trace ++ evs) ∧ t.pos = s.pos ∧ t.outTaken = s.outTaken ∧ t.respTaken = s.respTaken ∧
      t.port = s.port := by
  have hp : ∃ evs, (performed i s).trace = s.trace ++ evs := performed_trace i s
  have hk : (performed i s).pos = s.pos ∧ (performed i s).outTaken = s.outTaken ∧
      (performed i s).respTaken = s.respTaken ∧ (performed i s).port = s.port := by
    cases i <;> exact ⟨rfl, rfl, rfl, rfl⟩
  rcases exec_cases h with ⟨e, _, _, rfl⟩ | ⟨_, _, rfl⟩ | ⟨_, _, _, rfl⟩ | ⟨_, _, rfl⟩
  · exact ⟨⟨[], by simp⟩, rfl, rfl, rfl, rfl⟩
  · exact ⟨hp, hk⟩
  · exact ⟨hp, hk⟩
  · exact ⟨⟨[], by simp⟩, rfl, rfl, rfl, rfl⟩

/-- A word the decoder accepts runs its command at the next position. -/
theorem takeCommand_ok {cmd : Command} {i : Instr} (h : decode cmd = .ok i) (s : State) :
    takeCommand cmd s = exec i { s with pos := s.pos + 1 } := by
  simp [takeCommand, h]

/-- A word the decoder rejects raises its error or is discarded. -/
theorem takeCommand_error {cmd : Command} {e : DecodeError} (h : decode cmd = .error e) (s : State) :
    takeCommand cmd s = .next (takeIllFormed e cmd { s with pos := s.pos + 1 }) := by
  simp [takeCommand, h]

/-- Taking a word always answers a next state. -/
theorem takeCommand_next (cmd : Command) (s : State) : ∃ t, takeCommand cmd s = .next t := by
  cases h : decode cmd with
  | ok i =>
    obtain ⟨t, ht⟩ := exec_next i { s with pos := s.pos + 1 }
    exact ⟨t, by rw [takeCommand_ok h, ht]⟩
  | error e => exact ⟨_, takeCommand_error h s⟩

/-- Taking a word only adds events, moves the position by 1, and leaves what the host has drained and the moves to
come. -/
theorem takeCommand_keeps {cmd : Command} {s t : State} (h : takeCommand cmd s = .next t) :
    (∃ evs, t.trace = s.trace ++ evs) ∧ t.pos = s.pos + 1 ∧ t.outTaken = s.outTaken ∧ t.respTaken = s.respTaken ∧
      t.port = s.port := by
  cases hd : decode cmd with
  | ok i =>
    rw [takeCommand_ok hd] at h
    exact exec_keeps h
  | error e =>
    rw [takeCommand_error hd] at h
    cases h
    unfold takeIllFormed
    split
    · exact ⟨⟨[], by simp⟩, rfl, rfl, rfl, rfl⟩
    · exact ⟨⟨[], by simp⟩, rfl, rfl, rfl, rfl⟩

/-- Everything one step can do, by the first move to come. -/
theorem step_cases {s t : State} (h : step s = .next t) :
    t = s ∨
    (∃ rest, s.port = .takeOut :: rest ∧ s.outWaiting ≠ 0 ∧ t = { s with port := rest, outTaken := s.outTaken + 1 }) ∨
    (∃ rest, s.port = .takeResp :: rest ∧ s.respWaiting ≠ 0 ∧
      t = { s with port := rest, respTaken := s.respTaken + 1 }) ∨
    (∃ rest, (s.port = .rst :: rest ∨ ∃ cmd, s.port = .rstDuring cmd :: rest ∧ portStalled s = true) ∧
      t = clearRegs { s with port := rest }) ∨
    (∃ cmd rest u, s.port = .rstDuring cmd :: rest ∧ portStalled s = false ∧
      takeCommand cmd { s with port := rest } = .next u ∧ t = cutReset (Config.resetCut s.pos) s.trace u) ∨
    (∃ cmd rest, s.port = .offer cmd :: rest ∧ portStalled s = false ∧
      takeCommand cmd { s with port := rest } = .next t) := by
  unfold step hostStep at h
  split at h
  · exact .inl (by cases h; rfl)
  · rename_i cmd rest hp
    unfold offerStep at h
    split at h
    · exact .inl (by cases h; rfl)
    · exact .inr (.inr (.inr (.inr (.inr ⟨cmd, rest, hp, by simpa using ‹¬ portStalled s = true›, h⟩))))
  · rename_i rest hp
    unfold takeOutStep at h
    split at h
    · exact .inl (by cases h; rfl)
    · exact .inr (.inl ⟨rest, hp, ‹_›, by cases h; rfl⟩)
  · rename_i rest hp
    unfold takeRespStep at h
    split at h
    · exact .inl (by cases h; rfl)
    · exact .inr (.inr (.inl ⟨rest, hp, ‹_›, by cases h; rfl⟩))
  · rename_i rest hp
    exact .inr (.inr (.inr (.inl ⟨rest, .inl hp, by cases h; rfl⟩)))
  · rename_i cmd rest hp
    unfold rstDuringStep at h
    split at h
    · exact .inr (.inr (.inr (.inl ⟨rest, .inr ⟨cmd, hp, ‹_›⟩, by cases h; rfl⟩)))
    · obtain ⟨u, hu⟩ := takeCommand_next cmd { s with port := rest }
      rw [takeCommandCut, hu] at h
      exact .inr (.inr (.inr (.inr (.inl
        ⟨cmd, rest, u, hp, by simpa using ‹¬ portStalled s = true›, hu, by cases h; rfl⟩))))

/-- A step waits in the same state or is done with the first move to come. -/
theorem step_waits_or_moves {s t : State} (h : step s = .next t) : t = s ∨ ∃ m, s.port = m :: t.port := by
  rcases step_cases h with rfl | ⟨_, hp, _, rfl⟩ | ⟨_, hp, _, rfl⟩ | ⟨_, hp | ⟨_, hp, _⟩, rfl⟩ | ⟨_, _, u, hp, _, hu, rfl⟩ |
    ⟨_, _, hp, _, hu⟩
  · exact .inl rfl
  · exact .inr ⟨_, hp⟩
  · exact .inr ⟨_, hp⟩
  · exact .inr ⟨_, hp⟩
  · exact .inr ⟨_, hp⟩
  · exact .inr ⟨_, by rw [hp]; exact congrArg _ (takeCommand_keeps hu).2.2.2.2.symm⟩
  · exact .inr ⟨_, by rw [hp]; exact congrArg _ (takeCommand_keeps hu).2.2.2.2.symm⟩

end Sys2Proof.Machine
end

