-- ==== Sys2Proof/Laws/Run.lean ====
section
/-! SUPPORT. How `Takes` and `RunsTo` compose: one word taken is a run of one command, and runs follow one another. -/

namespace Sys2Proof.Machine

/-- A word that decodes to `i` takes the block where `i` takes it. -/
theorem takes_of_exec {cmd : Command} {i : Instr} {s t : State} (h : decode cmd = .ok i) (hx : exec i s = .next t) :
    Takes cmd s t := by
  intro a b rest hs
  exact (step_offer_ready hs cmd rest).trans ((takeCommand_ok h _).trans (exec_ports hx (s.pos + 1) a b rest))

/-- A word that does not decode enters the error state, or is discarded in it. -/
theorem takes_of_error {cmd : Command} {e : DecodeError} {s : State} (h : decode cmd = .error e) :
    Takes cmd s (takeIllFormed e cmd s) := by
  intro a b rest hs
  refine (step_offer_ready hs cmd rest).trans ((takeCommand_error h _).trans ?_)
  unfold takeIllFormed
  by_cases h0 : s.ecode = 0#4
  · simp [h0, raiseErr]
  · simp [h0]

/-- `Takes` where the port stands as it stands. -/
theorem Takes.step {cmd : Command} {s t : State} (h : Takes cmd s t) (hs : portStalled s = false)
    (rest : List HostMove) :
    Machine.step { s with port := .offer cmd :: rest } =
      .next { t with outTaken := s.outTaken, respTaken := s.respTaken, port := rest, pos := s.pos + 1 } :=
  h s.outTaken s.respTaken rest hs

/-- The first step of a run. -/
theorem runSteps_succ {s t : State} (k : Nat) (h : step s = .next t) : runSteps (k + 1) s = runSteps k t := by
  simp only [runSteps, h]

/-- A run in two parts. -/
theorem runSteps_add (m n : Nat) {s t : State} (h : runSteps m s = .next t) : runSteps (m + n) s = runSteps n t := by
  induction m generalizing s with
  | zero =>
    cases h
    rw [Nat.zero_add]
  | succ m ih =>
    rw [Nat.add_right_comm]
    cases hs : step s with
    | next s' =>
      rw [runSteps_succ m hs] at h
      rw [runSteps_succ (m + n) hs]
      exact ih h
    | fault r => simp [runSteps, hs] at h
    | refused r => simp [runSteps, hs] at h

/-- The runs of the statements are the host's runs of the machine. -/
theorem core_run_eq (k : Nat) (s : State) : Host.Core.run core k s = runSteps k s := by
  induction k generalizing s with
  | zero => rfl
  | succ k ih =>
    have hc : core.step s = step s := rfl
    simp only [Host.Core.run, runSteps]
    rw [hc]
    cases step s with
    | next t => exact ih t
    | fault r => rfl
    | refused r => rfl

/-! Waiting and getting through -/

/-- A run that leaves as many moves to come as there were has only waited. -/
theorem runSteps_port {k : Nat} {s u : State} (h : runSteps k s = .next u) :
    u.port.length ≤ s.port.length ∧ (u.port.length = s.port.length → u = s) := by
  induction k generalizing s with
  | zero =>
    cases h
    exact ⟨Nat.le_refl _, fun _ => rfl⟩
  | succ k ih =>
    obtain ⟨t, ht⟩ : ∃ t, step s = .next t := by
      cases hs : step s with
      | next t => exact ⟨t, rfl⟩
      | fault r => simp [runSteps, hs] at h
      | refused r => simp [runSteps, hs] at h
    rw [runSteps_succ k ht] at h
    rcases step_waits_or_moves ht with rfl | ⟨m, hm⟩
    · exact ih h
    · have := (ih h).1
      rw [hm, List.length_cons]
      exact ⟨by omega, fun he => by omega⟩

/-- A run that gets through the moves `ms` passes the point where exactly they are done. -/
theorem runSteps_passes {k : Nat} {s u : State} {ms tail : List HostMove} (h : runSteps k s = .next u)
    (hp : s.port = ms ++ tail) (hu : u.port.length ≤ tail.length) :
    ∃ m n v, k = m + n ∧ runSteps m s = .next v ∧ v.port = tail ∧ runSteps n v = .next u := by
  induction k generalizing s ms with
  | zero =>
    cases h
    cases ms with
    | nil => exact ⟨0, 0, _, rfl, rfl, hp, rfl⟩
    | cons m ms =>
      rw [hp, List.length_append, List.length_cons] at hu
      omega
  | succ k ih =>
    cases ms with
    | nil => exact ⟨0, k + 1, s, by omega, rfl, hp, h⟩
    | cons m ms =>
      obtain ⟨t, ht⟩ : ∃ t, step s = .next t := by
        cases hs : step s with
        | next t => exact ⟨t, rfl⟩
        | fault r => simp [runSteps, hs] at h
        | refused r => simp [runSteps, hs] at h
      rw [runSteps_succ k ht] at h
      rcases step_waits_or_moves ht with rfl | ⟨m', hm⟩
      · obtain ⟨i, j, v, hk, h1, h2, h3⟩ := ih h hp
        exact ⟨i + 1, j, v, by omega, (runSteps_succ i ht).trans h1, h2, h3⟩
      · rw [hp, List.cons_append] at hm
        obtain ⟨i, j, v, hk, h1, h2, h3⟩ := ih h (List.cons.inj hm).2.symm
        exact ⟨i + 1, j, v, by omega, (runSteps_succ i ht).trans h1, h2, h3⟩

/-- A host that takes words which wait on RESP gets through. -/
theorem runSteps_drainResp (m : Nat) (s : State) (hm : m ≤ s.respWaiting) (rest : List HostMove) :
    runSteps m { s with port := List.replicate m .takeResp ++ rest } =
      .next { s with respTaken := s.respTaken + m, port := rest } := by
  induction m generalizing s with
  | zero => rfl
  | succ m ih =>
    have hs := (step_takeResp s (List.replicate m .takeResp ++ rest)).trans (if_neg (by omega))
    have := ih { s with respTaken := s.respTaken + 1 } (by
      simp only [State.respWaiting, State.resp] at hm ⊢
      omega)
    rw [List.replicate_succ, List.cons_append, runSteps_succ m hs, this, Nat.add_right_comm, Nat.add_assoc]

/-- A host that takes bytes which wait on OUT gets through. -/
theorem runSteps_drainOut (n : Nat) (s : State) (hn : n ≤ s.outWaiting) (rest : List HostMove) :
    runSteps n { s with port := List.replicate n .takeOut ++ rest } =
      .next { s with outTaken := s.outTaken + n, port := rest } := by
  induction n generalizing s with
  | zero => rfl
  | succ n ih =>
    have hs := (step_takeOut s (List.replicate n .takeOut ++ rest)).trans (if_neg (by omega))
    have := ih { s with outTaken := s.outTaken + 1 } (by
      simp only [State.outWaiting, State.out] at hn ⊢
      omega)
    rw [List.replicate_succ, List.cons_append, runSteps_succ n hs, this, Nat.add_right_comm, Nat.add_assoc]

/-- A host that takes what waits on both streams gets through. -/
theorem runSteps_drain (s : State) (n m : Nat) (hn : n ≤ s.outWaiting) (hm : m ≤ s.respWaiting)
    (rest : List HostMove) :
    runSteps (n + m) { s with port := List.replicate n .takeOut ++ (List.replicate m .takeResp ++ rest) } =
      .next { s with outTaken := s.outTaken + n, respTaken := s.respTaken + m, port := rest } :=
  (runSteps_add n m (runSteps_drainOut n s hn _)).trans
    (runSteps_drainResp m { s with outTaken := s.outTaken + n } hm rest)

/-! Runs of commands -/

theorem offers_nil : Offers [] [] := ⟨fun _ h => absurd h List.not_mem_nil, rfl⟩

theorem offers_append {ms ns : List HostMove} {as bs : List Instr} (ha : Offers ms as) (hb : Offers ns bs) :
    Offers (ms ++ ns) (as ++ bs) := by
  refine ⟨fun m hm => ?_, by rw [List.filterMap_append, ha.2, hb.2, List.map_append]⟩
  rcases List.mem_append.mp hm with h | h
  · exact ha.1 m h
  · exact hb.1 m h

theorem offers_split {ms : List HostMove} {as bs : List Instr} (h : Offers ms (as ++ bs)) :
    ∃ ns os, ms = ns ++ os ∧ Offers ns as ∧ Offers os bs := by
  obtain ⟨ns, os, rfl, h1, h2⟩ := List.filterMap_eq_append_iff.mp (h.2.trans (List.map_append ..))
  exact ⟨ns, os, rfl, ⟨fun m hm => h.1 m (List.mem_append_left _ hm), h1⟩,
    ⟨fun m hm => h.1 m (List.mem_append_right _ hm), h2⟩⟩

/-- Taking what waits is no offer. -/
theorem offers_drain (n m : Nat) : Offers (List.replicate n .takeOut ++ List.replicate m .takeResp) [] := by
  refine ⟨fun x hx => ?_, ?_⟩
  · rcases List.mem_append.mp hx with h | h <;> rw [List.eq_of_mem_replicate h] <;> rfl
  · simp [List.filterMap_append, List.filterMap_replicate, offered]

/-- A move that is no offer and no reset waits, or changes only what the host has taken. -/
theorem step_take {m : HostMove} (ho : offered m = none) (hr : isReset m = false) (s : State) (a b : Nat)
    (tail : List HostMove) :
    step { s with outTaken := a, respTaken := b, port := m :: tail } =
      .next { s with outTaken := a, respTaken := b, port := m :: tail } ∨
    ∃ a' b', step { s with outTaken := a, respTaken := b, port := m :: tail } =
      .next { s with outTaken := a', respTaken := b', port := tail } := by
  cases m with
  | offer cmd => cases ho
  | takeOut =>
    by_cases hw : State.outWaiting { s with outTaken := a, respTaken := b } = 0
    · exact .inl ((step_takeOut { s with outTaken := a, respTaken := b } tail).trans (if_pos hw))
    · exact .inr ⟨a + 1, b, (step_takeOut { s with outTaken := a, respTaken := b } tail).trans (if_neg hw)⟩
  | takeResp =>
    by_cases hw : State.respWaiting { s with outTaken := a, respTaken := b } = 0
    · exact .inl ((step_takeResp { s with outTaken := a, respTaken := b } tail).trans (if_pos hw))
    · exact .inr ⟨a, b + 1, (step_takeResp { s with outTaken := a, respTaken := b } tail).trans (if_neg hw)⟩
  | rst => cases hr
  | rstDuring cmd => cases hr

/-- The moves behind a move that is no offer offer the same commands. -/
theorem offers_tail {m : HostMove} {ms : List HostMove} {is : List Instr} (hm : offered m = none)
    (h : Offers (m :: ms) is) : Offers ms is :=
  ⟨fun x hx => h.1 x (List.mem_cons_of_mem _ hx), by rw [← h.2, List.filterMap_cons_none hm]⟩

/-- A host that offers nothing changes only how much it has taken. -/
theorem runsTo_nil (s : State) : RunsTo [] s s := by
  refine ⟨fun ms rest a b k u ho h hu => ?_, fun a b => ⟨[], 0, a, b, offers_nil, fun rest => rfl⟩⟩
  induction k generalizing ms a b with
  | zero =>
    cases h
    exact ⟨a, b, congrArg (fun p => State.mk _ _ _ _ _ _ _ _ _ _ _ _ _ _ p) hu⟩
  | succ k ih =>
    cases ms with
    | nil => exact ⟨a, b, (runSteps_port h).2 (congrArg List.length hu)⟩
    | cons m ms =>
      have hm : offered m = none := by
        cases hc : offered m with
        | none => rfl
        | some cmd =>
          have := ho.2
          rw [List.filterMap_cons_some hc] at this
          cases this
      rcases step_take hm (ho.1 m List.mem_cons_self) s a b (ms ++ rest) with hs | ⟨a', b', hs⟩
      · exact ih (m :: ms) a b ho ((runSteps_succ k hs).symm.trans h)
      · exact ih ms a' b' (offers_tail hm ho) ((runSteps_succ k hs).symm.trans h)

/-- Runs follow one another. -/
theorem runsTo_append {as bs : List Instr} {s t u : State} (ha : RunsTo as s t) (hb : RunsTo bs t u) :
    RunsTo (as ++ bs) s u := by
  constructor
  · intro ms rest a b k v ho h hv
    obtain ⟨ns, os, rfl, h1, h2⟩ := offers_split ho
    obtain ⟨m, n, w, rfl, hm, hw, hn⟩ :=
      runSteps_passes h (ms := ns) (tail := os ++ rest) (List.append_assoc ..) (by rw [hv]; simp)
    obtain ⟨a', b', rfl⟩ := ha.1 ns (os ++ rest) a b m w h1 (by rwa [List.append_assoc] at hm) hw
    exact hb.1 os rest a' b' n v h2 hn hv
  · intro a b
    obtain ⟨ns, m, a', b', h1, hm⟩ := ha.2 a b
    obtain ⟨os, n, a'', b'', h2, hn⟩ := hb.2 a' b'
    refine ⟨ns ++ os, m + n, a'', b'', offers_append h1 h2, fun rest => ?_⟩
    rw [List.append_assoc, runSteps_add m n (hm (os ++ rest))]
    exact hn rest

/-- One command the block takes is a run. -/
theorem runsTo_one {i : Instr} {s t : State} (hx : Takes (encode i) s t) :
    RunsTo [i] s { t with pos := s.pos + 1 } := by
  constructor
  · intro ms rest a b k u ho h hu
    induction k generalizing ms a b with
    | zero =>
      cases h
      cases ms with
      | nil => cases ho.2
      | cons m ms => exact absurd (congrArg List.length hu) (by simp only [List.length_append, List.length_cons]; omega)
    | succ k ih =>
      cases ms with
      | nil => cases ho.2
      | cons m ms =>
        cases hm : offered m with
        | none =>
          rcases step_take hm (ho.1 m List.mem_cons_self) s a b (ms ++ rest) with hs | ⟨a', b', hs⟩
          · exact ih (m :: ms) a b ho ((runSteps_succ k hs).symm.trans h)
          · exact ih ms a' b' (offers_tail hm ho) ((runSteps_succ k hs).symm.trans h)
        | some cmd =>
          have hc := ho.2
          rw [List.filterMap_cons_some hm] at hc
          obtain ⟨rfl, hc'⟩ := List.cons.inj hc
          obtain rfl : m = .offer (encode i) := by cases m <;> cases hm; rfl
          by_cases hs : portStalled { s with outTaken := a, respTaken := b } = true
          · exact ih (.offer (encode i) :: ms) a b ho
              ((runSteps_succ k (step_offer_stalled hs (encode i) (ms ++ rest))).symm.trans h)
          · have h' := (runSteps_succ k (hx a b (ms ++ rest) (by simpa using hs))).symm.trans h
            exact (runsTo_nil { t with pos := s.pos + 1 }).1 ms rest a b k u
              ⟨fun x hx' => ho.1 x (List.mem_cons_of_mem _ hx'), hc'⟩ h' hu
  · intro a b
    let s' : State := { s with outTaken := a, respTaken := b }
    refine ⟨(List.replicate s'.outWaiting .takeOut ++ List.replicate s'.respWaiting .takeResp) ++ [.offer (encode i)],
      s'.outWaiting + s'.respWaiting + 1, a + s'.outWaiting, b + s'.respWaiting, ?_, fun rest => ?_⟩
    · exact offers_append (offers_drain _ _) ⟨by simp [isReset], rfl⟩
    · have hd := runSteps_drain s' _ _ (Nat.le_refl _) (Nat.le_refl _) (.offer (encode i) :: rest)
      rw [List.append_assoc, List.append_assoc]
      have hs : portStalled { s with outTaken := a + s'.outWaiting, respTaken := b + s'.respWaiting } = false :=
        portStalled_drained
          (by simp only [s', State.outWaiting, State.out]; omega)
          (by simp only [s', State.respWaiting, State.resp]; omega)
      exact (runSteps_add _ 1 hd).trans (runSteps_succ 0 (hx _ _ rest hs))

/-- A command the block takes, then the run of those after it. -/
theorem runsTo_cons {i : Instr} {is : List Instr} {s t u : State} (h : Takes (encode i) s t)
    (hr : RunsTo is { t with pos := s.pos + 1 } u) : RunsTo (i :: is) s u :=
  runsTo_append (runsTo_one h) hr

end Sys2Proof.Machine
end

