-- ==== Sys2Proof/Tests/Slice0.lean ====
section
/-! SUPPORT. The model's own tests. The expected values come from spec/95_test_vectors.md (the table is named at each
test), from the worked examples of the command rules, and, for encodings, from the bit patterns of
spec/30_encoding.md R60 to R62. The theorems `witness_…` show for each statement with hypotheses a concrete state and
operands that meet them. -/

set_option Elab.async false

namespace Sys2Proof.Tests

open Sys2Proof.Machine

/-! States -/

/-- Idle mode, a length declared. -/
def declared (n : Word) : State := { State.reset with len := n, lv := true }

/-- Chunk mode after CHUNK.LEN `n` and CHUNK.TYPE "IDAT" (spec/95 2.1: raw CRC after "IDAT"), `r` bytes still due. -/
def inIdat (n r : Word) : State :=
  { State.reset with inchunk := true, len := n, rem := r, type := 0x49444154#32, crc := 0xCA50F9E1#32 }

/-- The error state after CHUNK.DATA 1 raised OVERRUN (spec/95 P4, command 4). -/
def overrunState : State := { inIdat 1#32 0#32 with ecode := 8#4, eop := 0x12#8, earg := 1#32 }

/-- The state one step after the word `w` was offered to `s`. -/
def after (s : State) (w : Nat) : Option State :=
  match step (s.withFetchWord 40 w) with
  | .next t => some t
  | _ => none

/-- One field of that state. -/
def field {α : Type} (f : State → α) (s : State) (w : Nat) : Option α := (after s w).map f

/-! WellFormed smoke -/

theorem test_wellFormed_refuses_register_8 : (Instr.rdreg 8#32).wellFormed = false := by decide
theorem test_wellFormed_refuses_register_max : (Instr.rdreg 0xFFFFFFFF#32).wellFormed = false := by decide
theorem test_wellFormed_accepts_register_7 : (Instr.rdreg 7#32).wellFormed = true := by decide
theorem test_decode_refuses_ill_formed_encodings :
    decode (encode (.rdreg 8#32)) = .error .reservedArg ∧ decode 0x0000000001#40 = .error .reservedArg ∧
    decode 0x0200000100#40 = .error .reservedArg ∧ decode 0x0500000000#40 = .error .illegalOp := by decide +kernel

/-! Decoding: each word written out from R60 (`op` in bits 39:32), R61 (the operand's place) and R62 (the opcode) -/

theorem test_decode_nop : decode 0b0000000000000000000000000000000000000000#40 = .ok .nop := by decide +kernel
theorem test_decode_crcInit : decode 0b0000000100000000000000000000000000000000#40 = .ok .crcInit := by decide +kernel
theorem test_decode_crcByte :
    decode 0b0000001000000000000000000000000010000001#40 = .ok (.crcByte 0x81#8) := by decide +kernel
theorem test_decode_crcWord :
    decode 0b0000001110000000000000000000000000000010#40 = .ok (.crcWord 0x80000002#32) := by decide +kernel
theorem test_decode_crcEmit : decode 0b0000010000000000000000000000000000000000#40 = .ok .crcEmit := by decide +kernel
theorem test_decode_chunkLen :
    decode 0b0001000000000000000000000000000000001101#40 = .ok (.chunkLen 13#32) := by decide +kernel
theorem test_decode_chunkType :
    decode 0b0001000101001001010001010100111001000100#40 = .ok (.chunkType 0x49454E44#32) := by decide +kernel
theorem test_decode_chunkData :
    decode 0b0001001000000000000000000000000010010110#40 = .ok (.chunkData 0x96#8) := by decide +kernel
theorem test_decode_chunkData4 :
    decode 0b0001001100000001000000100000001100000100#40 = .ok (.chunkData4 0x01020304#32) := by decide +kernel
theorem test_decode_chunkEnd :
    decode 0b0001010000000000000000000000000000000000#40 = .ok .chunkEnd := by decide +kernel
theorem test_decode_serByte :
    decode 0b0010000000000000000000000000000010001001#40 = .ok (.serByte 0x89#8) := by decide +kernel
theorem test_decode_serBe32 :
    decode 0b0010000110001001010100000100111001000111#40 = .ok (.serBe32 0x89504E47#32) := by decide +kernel
theorem test_decode_rdreg : decode 0b1111000000000000000000000000000000000111#40 = .ok (.rdreg 7#32) := by decide +kernel
theorem test_decode_clear : decode 0b1111111100000000000000000000000000000000#40 = .ok .clear := by decide +kernel
theorem test_decodeTableWord : decodeTableWord 40 0x12000000A5 = some (.chunkData 0xA5#8) := by decide +kernel

/-! The CRC function (spec/95 2.1) -/

theorem test_crcByte_zero_from_init : crcByte 0xFFFFFFFF#32 0#8 = 0x2DFD1072#32 := by decide +kernel
theorem test_crc32_of_123456789 :
    crc32 [0x31#8, 0x32#8, 0x33#8, 0x34#8, 0x35#8, 0x36#8, 0x37#8, 0x38#8, 0x39#8] = 0xCBF43926#32 := by
  decide +kernel

/-! One step each, at most two per command -/

/-- spec/95 2.5, 2.6: NOP in the error state changes nothing but the position. -/
theorem test_nop_in_error_state : after overrunState 0x0000000000 = some { overrunState with pos := 1 } := by
  decide +kernel
/-- R120's example. -/
theorem test_nop_reserved_bit : field status State.reset 0x0000000001 = some 0x00000024#32 := by decide +kernel

/-- spec/95 2.2. -/
theorem test_crcInit :
    field State.crc { State.reset with crc := 0x174841BC#32 } 0x0100000000 = some 0xFFFFFFFF#32 := by decide +kernel
/-- spec/95 2.6. -/
theorem test_crcInit_reserved_bit : field status State.reset 0x0100000001 = some 0x00000124#32 := by decide +kernel

/-- spec/95 2.2. -/
theorem test_crcByte : field State.crc State.reset 0x0200000061 = some 0x174841BC#32 := by decide +kernel
/-- spec/95 2.6: NOT_IDLE, `crc` and `rem` stay. -/
theorem test_crcByte_in_chunk :
    field (fun t => (status t, t.crc, t.rem)) (inIdat 1#32 1#32) 0x0200000041 =
      some (0x00000235#32, 0xCA50F9E1#32, 1#32) := by decide +kernel

/-- spec/95 2.2. -/
theorem test_crcWord : field State.crc State.reset 0x0301020304 = some 0x49C30432#32 := by decide +kernel
/-- spec/95 2.2. -/
theorem test_crcWord_ones : field State.crc State.reset 0x03FFFFFFFF = some 0x00000000#32 := by decide +kernel

/-- spec/95 2.2. -/
theorem test_crcEmit :
    field (fun t => (t.out, t.crc, t.outcnt)) { State.reset with crc := 0x51BD9F7D#32 } 0x0400000000 =
      some ([0xAE#8, 0x42#8, 0x60#8, 0x82#8], 0x51BD9F7D#32, 4#32) := by decide +kernel

/-- spec/95 2.3. -/
theorem test_chunkLen_max :
    field (fun t => (t.len, t.lv, status t)) State.reset 0x107FFFFFFF =
      some (0x7FFFFFFF#32, true, 0x00000002#32) := by decide +kernel
/-- spec/95 2.6. -/
theorem test_chunkLen_bad :
    field (fun t => (t.len, t.lv, status t)) State.reset 0x1080000000 = some (0#32, false, 0x00001064#32) := by
  decide +kernel

/-- R92's example. -/
theorem test_chunkType :
    field (fun t => (t.out, t.crc, t.type)) (declared 0#32) 0x1149454E44 =
      some ([0#8, 0#8, 0#8, 0#8, 0x49#8, 0x45#8, 0x4E#8, 0x44#8], 0x51BD9F7D#32, 0x49454E44#32) := by decide +kernel
/-- spec/95 2.6: 0x5B is just above 'Z'. -/
theorem test_chunkType_bad_tag : field status (declared 0#32) 0x114142435B = some 0x00001176#32 := by decide +kernel

/-- spec/95 2.3, R94's example. -/
theorem test_chunkData :
    field (fun t => (t.out, t.crc, t.rem, t.inchunk)) (inIdat 1#32 1#32) 0x1200000000 =
      some ([0#8], 0xD7C78217#32, 0#32, true) := by decide +kernel
/-- spec/95 2.6. -/
theorem test_chunkData_overrun : field status (inIdat 0#32 0#32) 0x1200000005 = some 0x00001285#32 := by decide +kernel

/-- spec/95 2.3: after CHUNK.LEN 13 and CHUNK.TYPE "IHDR" (raw CRC after the tag in 2.1). -/
theorem test_chunkData4 :
    field (fun t => (t.out, t.crc, t.rem))
        { State.reset with inchunk := true, len := 13#32, rem := 13#32, crc := 0x575E51F5#32 } 0x1300000001 =
      some ([0#8, 0#8, 0#8, 1#8], 0x7AF62609#32, 9#32) := by decide +kernel
/-- spec/95 2.6: no partial word. -/
theorem test_chunkData4_overrun :
    field (fun t => (status t, t.rem, t.out)) (inIdat 3#32 3#32) 0x1300000000 = some (0x00001385#32, 3#32, []) := by
  decide +kernel

/-- spec/95 2.3, third row: the trailer after the one content byte 00. -/
theorem test_chunkEnd :
    field (fun t => (t.out, t.inchunk, t.crc)) { inIdat 1#32 0#32 with crc := 0xD7C78217#32 } 0x1400000000 =
      some ([0x28#8, 0x38#8, 0x7D#8, 0xE8#8], false, 0xD7C78217#32) := by decide +kernel
/-- spec/95 2.6. -/
theorem test_chunkEnd_underrun : field status (inIdat 1#32 1#32) 0x1400000000 = some 0x00001495#32 := by decide +kernel

/-- spec/95 2.4. -/
theorem test_serByte : field State.out State.reset 0x2000000089 = some [0x89#8] := by decide +kernel
/-- spec/95 2.4. -/
theorem test_serBe32 : field State.out State.reset 0x2101020304 = some [1#8, 2#8, 3#8, 4#8] := by decide +kernel
/-- R30: the byte counter wraps. -/
theorem test_serBe32_outcnt_wraps :
    field State.outcnt { State.reset with outcnt := 0xFFFFFFFE#32 } 0x2100000000 = some 2#32 := by decide +kernel

/-- spec/95 P4, command 6. -/
theorem test_rdreg_status_in_error_state : field State.resp overrunState 0xF000000000 = some [0x00001285#32] := by
  decide +kernel
/-- spec/95 2.5: RESERVED_ARG and no response. -/
theorem test_rdreg_reserved :
    field (fun t => (status t, t.resp)) State.reset 0xF000000008 = some (0x0000F024#32, []) := by decide +kernel

/-- spec/95 2.5: every register at its reset value. -/
theorem test_clear : after overrunState 0xFF00000000 = some { State.reset with pos := 1 } := by decide +kernel
/-- spec/95 2.6: an ill-formed CLEAR is discarded in the error state. -/
theorem test_clear_ill_formed : after overrunState 0xFF00000001 = some { overrunState with pos := 1 } := by
  decide +kernel

/-- spec/95 2.6: an undefined opcode. -/
theorem test_undefined_opcode : field status State.reset 0x0500000000 = some 0x00000514#32 := by decide +kernel
/-- R141's examples: RESERVED_ARG before NOT_IN_CHUNK, NOT_IDLE before BAD_TYPE. -/
theorem test_priority :
    field State.ecode State.reset 0x1400000001 = some 2#4 ∧
    field State.ecode (inIdat 1#32 1#32) 0x1131484452 = some 3#4 := by decide +kernel

/-- R69's `CHUNK.TYPE "IEND"` and `RDREG CRCF`, spelled as R67 spells them, and a byte out of range. -/
theorem test_assembler :
    assembleWords "CHUNK.TYPE \"IEND\" ; the last chunk".toList = some [0x1149454E44#40] ∧
    assembleWords "RDREG CRCF".toList = some [0xF000000002#40] ∧
    assembleWords "CHUNK.DATA 256".toList = none ∧ assembleWords "CRC.BYTE 'a'".toList = some [0x0200000061#40] := by
  decide +kernel
/-- R68's expansion of a byte list. -/
theorem test_assembler_byte_list :
    assembleWords "CHUNK.BYTES 0xE6, 0xE6, 0xE6, 180, 180".toList = some [0x13E6E6E6B4#40, 0x12000000B4#40] := by
  decide +kernel

/-! The ports -/

/-- OUT holds one byte more than its buffer is deep, and the host has taken none. -/
def undrained : State :=
  { State.reset with trace := (List.replicate (Config.outDepth + 1) 0#8).map .out, port := [.offer 0x0000000000#40] }

theorem undrained_out : undrained.out = List.replicate (Config.outDepth + 1) 0#8 := outBytes_map_out _

/-- R45, R165 (b): an undrained OUT stalls the port. -/
theorem test_undrained_port_stalls : portStalled undrained = true := by
  have h : undrained.outWaiting = Config.outDepth + 1 :=
    (congrArg List.length undrained_out).trans List.length_replicate
  have hn : noRoom Config.outDepth undrained.outWaiting = true := (noRoom_iff _ _).mpr ⟨by omega, by omega⟩
  rw [portStalled, hn, Bool.true_or]

/-- R12, R40: the host takes one byte, and then none is left. -/
theorem test_takeOut :
    step { State.reset with trace := [.out 0x89#8], port := [.takeOut] } =
      .next { State.reset with trace := [.out 0x89#8], outTaken := 1 } := rfl

/-- R136: after a discarded RDREG the host that waits for a response waits for ever. -/
theorem test_takeResp_waits :
    step { overrunState with port := [.takeResp] } = .next { overrunState with port := [.takeResp] } := rfl

/-! Witnesses: states and operands that meet each statement's hypotheses, at the boundary values of each clause -/

theorem witness_DecodeInvertsEncode : (Instr.rdreg 7#32).wellFormed = true ∧ Instr.clear.wellFormed = true := by decide

theorem witness_EncodeInvertsDecode : decode 0xF000000007#40 = .ok (.rdreg 7#32) := by decide +kernel

theorem witness_StepRunsTheDecodedCommand :
    portStalled State.reset = false ∧ decode 0x2101020304#40 = .ok (.serBe32 0x01020304#32) :=
  ⟨rfl, by decide +kernel⟩

theorem witness_EveryWordAdvancesThePositionByOne : portStalled (inIdat 1#32 1#32) = false := rfl


theorem witness_IdlePortKeepsEverything : (inIdat 3#32 1#32).port = [] := rfl

theorem witness_ResetDuringACommandCutsOnlyItsOwnEvents :
    (∃ t, step { State.reset with port := [.offer 0x2101020304#40] } = .next t) ∧
    (∃ u, step { State.reset with port := [.rstDuring 0x2101020304#40] } = .next u) := ⟨⟨_, rfl⟩, ⟨_, rfl⟩⟩

theorem witness_UndefinedOpcodeIsIllegal :
    0x05#8 ∉ definedOps ∧ 0xFE#8 ∉ definedOps ∧ 0x22#8 ∉ definedOps ∧ State.reset.ecode = 0#4 ∧
    overrunState.ecode ≠ 0#4 := by decide +kernel

theorem witness_ReservedArgumentBitsAreRefused :
    ReservedSet 0x14#8 1#32 ∧ ReservedSet 0x02#8 0x100#32 ∧ ReservedSet 0xF0#8 8#32 ∧ State.reset.ecode = 0#4 ∧
    overrunState.ecode ≠ 0#4 := by
  refine ⟨.inl (by decide), .inr (.inl (by decide)), .inr (.inr (by decide)), by decide, by decide⟩

theorem witness_ErrorStateFiltersCommands :
    overrunState.ecode ≠ 0#4 ∧ readReg 7#32 overrunState = some 1#32 ∧ (7#32 : Word) < 8#32 ∧
    (¬ (0xF0#8 = 0x00#8 ∧ 8#32 = 0#32) ∧ ¬ (0xF0#8 = 0xFF#8 ∧ 8#32 = 0#32) ∧ ¬ (0xF0#8 = 0xF0#8 ∧ 8#32 < 8#32)) := by
  decide +kernel

theorem witness_ModeCheckFollowsTheTable :
    (inIdat 1#32 1#32).ecode = 0#4 ∧ (inIdat 1#32 1#32).inchunk = true ∧ State.reset.inchunk = false ∧
    Instr.crcInit.op ∈ idleOps ∧ Instr.chunkEnd.op ∈ chunkOps ∧ Instr.nop.op ∉ idleOps ∧ Instr.nop.op ∉ chunkOps ∧
    Instr.crcInit.wellFormed = true ∧ Instr.chunkEnd.wellFormed = true ∧ Instr.nop.wellFormed = true := by decide +kernel

theorem witness_ErrorEntryChangesOnlyTheErrorRecord :
    State.reset.ecode = 0#4 ∧
    step { State.reset with port := [.offer (mkCommand 0x14#8 0#32)] } =
      .next { State.reset with ecode := 4#4, eop := 0x14#8, pos := 1 } ∧ (4#4 : BitVec 4) ≠ 0#4 :=
  ⟨rfl, rfl, by decide⟩

theorem witness_FirstApplicableErrorIsRaised :
    (0x1F#8 ∉ definedOps) ∧ ReservedSet 0xF0#8 0xFFFFFFFF#32 ∧
    (0x21#8 ∈ idleOps ∧ ¬ ReservedSet 0x21#8 5#32 ∧ (inIdat 1#32 1#32).inchunk = true) ∧
    (0x14#8 ∈ chunkOps ∧ ¬ ReservedSet 0x14#8 0#32 ∧ State.reset.inchunk = false) ∧
    (State.reset.lv = false) ∧ ((declared 0#32).lv = true ∧ (declared 0#32).inchunk = false ∧ ¬ LetterTag 0x4142435B#32) ∧
    ((0x7FFFFFFF#32 : Word) < 0x80000000#32) ∧
    (¬ ReservedSet 0x12#8 0xFF#32 ∧ (inIdat 1#32 0#32).rem = 0#32) ∧ ((inIdat 3#32 3#32).rem < 4#32) ∧
    ((inIdat 1#32 1#32).rem ≠ 0#32) := by
  unfold ReservedSet LetterTag
  refine ⟨?_, ?_, ?_, ?_, ?_, ?_, ?_, ?_, ?_, ?_⟩ <;> decide +kernel

theorem witness_ErrorCodesMatchTheirCauses :
    (∃ t, step { State.reset with port := [.offer (mkCommand 0x05#8 0#32)] } = .next t ∧ t.ecode = 1#4) ∧
    (∃ t, step { State.reset with port := [.offer (mkCommand 0x01#8 1#32)] } = .next t ∧ t.ecode = 2#4) ∧
    (∃ t, step { inIdat 1#32 1#32 with port := [.offer (mkCommand 0x01#8 0#32)] } = .next t ∧ t.ecode = 3#4) ∧
    (∃ t, step { State.reset with port := [.offer (mkCommand 0x14#8 0#32)] } = .next t ∧ t.ecode = 4#4) ∧
    (∃ t, step { State.reset with port := [.offer (mkCommand 0x11#8 0x49454E44#32)] } = .next t ∧ t.ecode = 5#4) ∧
    (∃ t, step { State.reset with port := [.offer (mkCommand 0x10#8 0x80000000#32)] } = .next t ∧ t.ecode = 6#4) ∧
    (∃ t, step { declared 0#32 with port := [.offer (mkCommand 0x11#8 0x31484452#32)] } = .next t ∧ t.ecode = 7#4) ∧
    (∃ t, step { inIdat 3#32 3#32 with port := [.offer (mkCommand 0x13#8 0#32)] } = .next t ∧ t.ecode = 8#4) ∧
    (∃ t, step { inIdat 1#32 1#32 with port := [.offer (mkCommand 0x14#8 0#32)] } = .next t ∧ t.ecode = 9#4) :=
  ⟨⟨_, rfl, rfl⟩, ⟨_, rfl, rfl⟩, ⟨_, rfl, rfl⟩, ⟨_, rfl, rfl⟩, ⟨_, rfl, rfl⟩, ⟨_, rfl, rfl⟩, ⟨_, rfl, rfl⟩,
    ⟨_, rfl, rfl⟩, ⟨_, rfl, rfl⟩⟩

theorem witness_OnlyClearAndResetLeaveTheErrorState :
    overrunState.ecode ≠ 0#4 ∧
    (∃ t, step { overrunState with port := [.offer 0xFF00000000#40] } = .next t ∧ t.ecode = 0#4) ∧
    (∃ t, step { overrunState with port := [.rst] } = .next t ∧ t.ecode = 0#4) ∧
    (∃ t, step { overrunState with port := [.rstDuring 0#40] } = .next t ∧ t.ecode = 0#4) :=
  ⟨by decide, ⟨_, rfl, rfl⟩, ⟨_, rfl, rfl⟩, ⟨_, rfl, rfl⟩⟩

theorem witness_ErrorsDoNotNest :
    overrunState.ecode ≠ 0#4 ∧ (∃ t, step { overrunState with port := [.offer 0x0500000000#40] } = .next t) :=
  ⟨by decide, ⟨_, rfl⟩⟩

theorem witness_ErrorLineFollowsTheErrorState :
    errO overrunState = true ∧
    (∃ t, step { overrunState with port := [.offer 0xFF00000000#40] } = .next t ∧ errO t = false) :=
  ⟨by decide, ⟨_, rfl, rfl⟩⟩

theorem witness_EveryStepKeepsTheInvariants :
    Inv (inIdat 3#32 3#32) ∧
    (∃ t, step { inIdat 3#32 3#32 with port := [.offer 0x1200000000#40] } = .next t) := by
  refine ⟨⟨by decide, by decide, by decide, by decide, by decide, by decide⟩, ⟨_, rfl⟩⟩

theorem witness_TraceOnlyGrows : ∃ t, step { State.reset with port := [.offer 0x2101020304#40] } = .next t := ⟨_, rfl⟩

theorem witness_OnlyRdregResponds :
    (∃ t, exec (.rdreg 1#32) State.reset = .next t ∧ t.resp ≠ State.reset.resp) ∧ (1#32 : Word) < 8#32 :=
  ⟨⟨_, rfl, by decide +kernel⟩, by decide⟩

theorem witness_OutcntCountsEmittedBytes :
    portStalled State.reset = false ∧
    (∃ t, step { State.reset with port := [.offer (mkCommand 0xFF#8 0#32)] } = .next t) ∧
    (∃ t, step { State.reset with port := [.offer 0x2000000089#40] } = .next t) ∧
    (0x2000000089#40 : Command) ≠ mkCommand 0xFF#8 0#32 := ⟨rfl, ⟨_, rfl⟩, ⟨_, rfl⟩, by decide⟩

theorem witness_RegistersAreWrittenOnlyByTheirCommands :
    (∃ t, exec (.crcWord 0#32) State.reset = .next t ∧ t.crc ≠ State.reset.crc) ∧
    (∃ t, exec (.chunkLen 5#32) State.reset = .next t ∧ t.len ≠ State.reset.len ∧ t.lv ≠ State.reset.lv) ∧
    (∃ t, exec (.chunkType 0x49444154#32) (declared 3#32) = .next t ∧ t.inchunk ≠ (declared 3#32).inchunk ∧
      t.rem ≠ (declared 3#32).rem ∧ t.type ≠ (declared 3#32).type ∧ t.outcnt ≠ (declared 3#32).outcnt) ∧
    (∃ t, exec .chunkEnd State.reset = .next t ∧ t.ecode ≠ State.reset.ecode) := by
  refine ⟨⟨_, rfl, ?_⟩, ⟨_, rfl, ?_⟩, ⟨_, rfl, ?_⟩, ⟨_, rfl, ?_⟩⟩ <;> decide +kernel

theorem witness_CommandsReadOnlyTheRegisters :
    portStalled State.reset = false ∧
    portStalled { State.reset with trace := [.out 0x89#8], outTaken := 1, respTaken := 0 } = false ∧
    ∃ t, step { State.reset with port := [.offer 0xF000000006#40] } = .next t := ⟨rfl, rfl, _, rfl⟩

theorem witness_StallDelaysOnly :
    portStalled undrained = true ∧
    portStalled { overrunState with outTaken := 0, respTaken := 0 } = false ∧
    portStalled { overrunState with outTaken := 3, respTaken := 1 } = false ∧
    ∃ t, step { overrunState with outTaken := 0, respTaken := 0, port := [.offer 0xF000000007#40] } = .next t :=
  ⟨test_undrained_port_stalls, rfl, rfl, _, rfl⟩

/-- A port that is stalled, and one where nothing waits. -/
theorem witness_HostThatNeverDrainsWaitsForEver :
    portStalled undrained = true ∧ State.reset.out.length ≤ State.reset.outTaken ∧
    State.reset.resp.length ≤ State.reset.respTaken := ⟨test_undrained_port_stalls, Nat.le_refl _, Nat.le_refl _⟩

theorem witness_HostTakesOnlyWhatWasProduced :
    State.reset.outTaken ≤ State.reset.out.length ∧ State.reset.respTaken ≤ State.reset.resp.length ∧
    ∃ t, step { State.reset with trace := [.out 0x89#8], port := [.takeOut] } = .next t ∧ t.outTaken = 1 :=
  ⟨Nat.le_refl _, Nat.le_refl _, _, rfl, rfl⟩

/-- Every word of every `...FollowsItsRule` statement is taken where the host has drained both streams. -/
theorem witness_Takes (s : State) :
    portStalled { s with outTaken := s.out.length, respTaken := s.resp.length } = false :=
  portStalled_drained (Nat.sub_self _) (Nat.sub_self _)

/-- Every run of the `RunsTo` statements is the run of some host. -/
theorem witness_RunsTo : ∃ ms, Offers ms [.chunkLen 1#32, .chunkType 0x49444154#32] ∧ .takeOut ∈ ms :=
  ⟨[.offer (encode (.chunkLen 1#32)), .takeOut, .offer (encode (.chunkType 0x49444154#32))],
    ⟨by decide +kernel, by decide +kernel⟩, by decide +kernel⟩

/-- The clauses of the statements about NOP, RDREG and CLEAR. -/
theorem witness_control_rules :
    (State.reset.ecode = 0#4 ∧ (1#32 : Word) ≠ 0#32) ∧ (overrunState.ecode ≠ 0#4 ∧ (0xFFFFFFFF#32 : Word) ≠ 0#32) ∧
    (0#32, 0#32) ∈ [((0#32 : Word), status State.reset)] ∧ (7#32, 1#32) ∈ [((7#32 : Word), overrunState.earg)] ∧
    (8#32 : Word) ≤ 8#32 ∧ (8#32 : Word) ≤ 0xFFFFFFFF#32 := by decide +kernel

/-- The clauses of the statements about CRC.INIT, CRC.BYTE, CRC.WORD, CRC.EMIT, SER.BYTE and SER.BE32: error state; a
reserved bit at its lowest place and beyond; chunk mode; idle mode. -/
theorem witness_idle_command_rules :
    overrunState.ecode ≠ 0#4 ∧ (State.reset.ecode = 0#4 ∧ (1#32 : Word) ≠ 0#32) ∧ ((0x100#32 : Word) ≤ 0x100#32) ∧
    ((0x100#32 : Word) ≤ 0xFFFFFFFF#32) ∧ ((inIdat 1#32 1#32).ecode = 0#4 ∧ (inIdat 1#32 1#32).inchunk = true) ∧
    (State.reset.ecode = 0#4 ∧ State.reset.inchunk = false) := by decide +kernel

theorem witness_ChunkLenFollowsItsRule :
    (State.reset.ecode = 0#4 ∧ State.reset.inchunk = false) ∧ (0x7FFFFFFF#32 : Word) < 0x80000000#32 ∧
    (0x7FFFFFFF#32 : Word) ≤ 0x7FFFFFFF#32 ∧ (0#32 : Word) ≤ 0x7FFFFFFF#32 ∧
    ((inIdat 1#32 1#32).ecode = 0#4 ∧ (inIdat 1#32 1#32).inchunk = true) ∧ overrunState.ecode ≠ 0#4 := by decide +kernel

theorem witness_ChunkTypeFollowsItsRule :
    (State.reset.ecode = 0#4 ∧ State.reset.inchunk = false ∧ State.reset.lv = false) ∧
    ((declared 5#32).ecode = 0#4 ∧ (declared 5#32).inchunk = false ∧ (declared 5#32).lv = true) ∧
    LetterTag 0x415A617A#32 ∧ ¬ LetterTag 0x40424344#32 ∧ ¬ LetterTag 0x4142435B#32 ∧ ¬ LetterTag 0x60424344#32 ∧
    ¬ LetterTag 0x4142437B#32 ∧ ((inIdat 1#32 1#32).ecode = 0#4 ∧ (inIdat 1#32 1#32).inchunk = true) ∧
    overrunState.ecode ≠ 0#4 := by
  unfold LetterTag
  decide +kernel

/-- The clauses of the statements about CHUNK.DATA, CHUNK.DATA4 and CHUNK.END. -/
theorem witness_chunk_command_rules :
    overrunState.ecode ≠ 0#4 ∧ (State.reset.ecode = 0#4 ∧ State.reset.inchunk = false) ∧
    ((1#32 : Word) ≠ 0#32 ∧ (0x100#32 : Word) ≤ 0x100#32) ∧
    ((inIdat 4#32 0#32).ecode = 0#4 ∧ (inIdat 4#32 0#32).inchunk = true ∧ (inIdat 4#32 0#32).rem = 0#32) ∧
    ((inIdat 4#32 1#32).ecode = 0#4 ∧ (inIdat 4#32 1#32).inchunk = true ∧ (inIdat 4#32 1#32).rem ≠ 0#32) ∧
    ((inIdat 4#32 3#32).inchunk = true ∧ (inIdat 4#32 3#32).rem < 4#32) ∧
    ((inIdat 4#32 4#32).inchunk = true ∧ 4#32 ≤ (inIdat 4#32 4#32).rem) := by decide +kernel

theorem witness_WordCommandsEqualFourByteCommands :
    (State.reset.ecode = 0#4 ∧ State.reset.inchunk = false) ∧
    ((inIdat 4#32 4#32).ecode = 0#4 ∧ (inIdat 4#32 4#32).inchunk = true ∧ 4#32 ≤ (inIdat 4#32 4#32).rem) := by
  decide +kernel

theorem witness_RepeatedRdregReturnsTheSameWord : (7#32 : Word) < 8#32 := by decide

theorem witness_StandaloneCrcEmitsTheCrcOfTheBytes :
    State.reset.ecode = 0#4 ∧ State.reset.inchunk = false ∧
    ∀ i ∈ [Instr.crcWord 0x31323334#32, .crcByte 0x39#8], crcPhase i = true := by decide +kernel

theorem witness_FramedChunkIsExactlyItsLayout :
    State.reset.ecode = 0#4 ∧ State.reset.inchunk = false ∧ (5#32 : Word) ≤ 0x7FFFFFFF#32 ∧ LetterTag 0x49444154#32 ∧
    (∀ i ∈ [Instr.nop, .rdreg 6#32], quiet i = true) ∧
    (∀ i ∈ [Instr.chunkData4 0xE6E6E6B4#32, .nop, .chunkData 0xB4#8, .rdreg 0#32], contentPhase i = true) ∧
    ([Instr.chunkData4 0xE6E6E6B4#32, .nop, .chunkData 0xB4#8, .rdreg 0#32].flatMap contentOf).length =
      (5#32 : Word).toNat := by
  unfold LetterTag
  decide +kernel

theorem witness_ContentIsCountedToTheDeclaredLength :
    (inIdat 4#32 4#32).inchunk = true ∧
    (∃ t, exec (.chunkData4 0#32) (inIdat 4#32 4#32) = .next t ∧ t.ecode = 0#4) ∧
    (∃ t, exec .chunkEnd (inIdat 4#32 0#32) = .next t ∧ t.ecode = 0#4) := ⟨rfl, ⟨_, rfl, rfl⟩, ⟨_, rfl, rfl⟩⟩

theorem witness_AssemblerNeverTruncates :
    numberOf "255".toList = some 255 ∧ numberOf "256".toList = some 256 ∧
    numberOf "0xFFFFFFFF".toList = some 0xFFFFFFFF ∧ numberOf "0x100000000".toList = some 0x100000000 := by
  decide +kernel

end Sys2Proof.Tests
end

section
/-! The state's registers: the position, the status word and the error line, and which commands write what
(spec/10_state.md). The laws first, each said about the model's own functions, then the statements. -/

namespace Sys2Proof.Machine

/-! The word a command came from -/

/-- A row of the opcode map builds a command that is encoded as the word it was built from (R61, R62). -/
theorem encode_build {r : OpRow} (hr : r ∈ opTable) {arg : Word} (hz : reservedZero r.form arg = true) :
    encode (r.build arg) = mkCommand r.op arg := by
  have hZ : reservedZero .Z arg = true → (0#32 : Word) = arg := fun h => (beq_iff_eq.mp h).symm
  have hB : reservedZero .B arg = true → (argByte arg).setWidth 32 = arg := setWidth_argByte
  simp only [opTable, List.mem_cons, List.not_mem_nil, or_false] at hr
  rcases hr with rfl | rfl | rfl | rfl | rfl | rfl | rfl | rfl | rfl | rfl | rfl | rfl | rfl | rfl <;>
    simp [encode, Instr.op, Instr.arg, hZ, hB, hz]

/-- The only word a command is decoded from is its encoding. -/
theorem encode_of_decode {cmd : Command} {i : Instr} (h : decode cmd = .ok i) : encode i = cmd := by
  obtain ⟨r, hr, hop, hz, rfl⟩ := decode_ok h
  rw [encode_build hr hz, hop, mkCommand_op_arg]

/-- The encoding of a well-formed command decodes to it, from the command's row of the opcode map. -/
theorem decode_encode_of_row {i : Instr} (hrow : Laws.Encoding.Statement i) (hw : i.wellFormed = true) :
    decode (encode i) = .ok i := by
  obtain ⟨r, hr, hb, hz⟩ := hrow
  rw [encode, decode_mkCommand, hr]
  simp [hz, hw, hb]

/-! The status word -/

theorem errO_iff (s : State) : errO s = true ↔ s.ecode ≠ 0#4 := by simp [errO]

/-- Every bit of the status word, by the field of R33 it lies in. -/
theorem status_getLsbD (s : State) (k : Nat) : (status s).getLsbD k =
    if k = 0 then s.inchunk else if k = 1 then s.lv else if k = 2 then errO s else if k = 3 then false
    else if k < 8 then s.ecode.getLsbD (k - 4) else s.eop.getLsbD (k - 8) := by
  simp only [status, BitVec.getLsbD_append]
  match k with
  | 0 => simp
  | 1 => simp
  | 2 => simp
  | 3 => simp
  | k + 4 =>
    by_cases h8 : k < 4
    · simp [h8, show k + 4 < 8 by omega]
    · simpa [h8, show ¬ k + 4 < 8 by omega] using BitVec.lt_of_getLsbD (x := s.eop)

/-- `ecode` lies in bits 7:4 (R33). -/
theorem status_ecode (s : State) : (status s).extractLsb' 4 4 = s.ecode := by
  apply BitVec.eq_of_getLsbD_eq
  intro k hk
  rw [BitVec.getLsbD_extractLsb', status_getLsbD]
  have h : 4 + k ≠ 0 ∧ 4 + k ≠ 1 ∧ 4 + k ≠ 2 ∧ 4 + k ≠ 3 ∧ 4 + k < 8 := by omega
  simp [hk, h]

/-- `eop` lies in bits 15:8 (R33). -/
theorem status_eop (s : State) : (status s).extractLsb' 8 8 = s.eop := by
  apply BitVec.eq_of_getLsbD_eq
  intro k hk
  rw [BitVec.getLsbD_extractLsb', status_getLsbD]
  have h : 8 + k ≠ 0 ∧ 8 + k ≠ 1 ∧ 8 + k ≠ 2 ∧ 8 + k ≠ 3 ∧ ¬ 8 + k < 8 := by omega
  simp [hk, h]

/-- Bits 31:16 are 0 (R33). -/
theorem status_high (s : State) : (status s).extractLsb' 16 16 = 0#16 := by
  apply BitVec.eq_of_getLsbD_eq
  intro k hk
  rw [BitVec.getLsbD_extractLsb', status_getLsbD]
  have h : 16 + k ≠ 0 ∧ 16 + k ≠ 1 ∧ 16 + k ≠ 2 ∧ 16 + k ≠ 3 ∧ ¬ 16 + k < 8 := by omega
  simp [h, BitVec.getLsbD_of_ge s.eop (16 + k - 8) (by omega)]

/-! Control commands -/

/-- A well-formed control command is performed in every state (R132, R134). -/
theorem exec_control {i : Instr} (hc : isControl i = true) (hw : i.wellFormed = true) (s : State) :
    exec i s = .next (performed i s) := by
  have hown : ownError i s = none := by cases i <;> simp [isControl] at hc <;> rfl
  have hmode : modeError i s.inchunk = none := by
    cases i <;> simp [isControl] at hc <;> cases s.inchunk <;> rfl
  rw [exec_eq_perform]
  by_cases h0 : s.ecode = 0#4
  · exact perform_done h0 (by simp [firstError, hw, hmode, hown])
  · exact perform_control h0 hc hw

/-- RDREG is well-formed where its number names a register (R34, R64). -/
theorem wellFormed_of_readReg {n v : Word} {s : State} (h : readReg n s = some v) :
    (Instr.rdreg n).wellFormed = true := by
  rw [wellFormed_rdreg, ← readReg_isSome n s, h, Option.isSome_some]

/-- RDREG of a register with a value responds with the value and does nothing else (R121). -/
theorem exec_rdreg {n v : Word} {s : State} (h : readReg n s = some v) :
    exec (.rdreg n) s = .next (respond v s) := by
  rw [exec_control rfl (wellFormed_of_readReg h)]
  simp [performed, h, respond]

/-- A word that reads a register with a value appends the value to RESP (R121). -/
theorem takes_rdreg {n v : Word} {s : State} (h : readReg n s = some v) :
    Takes (mkCommand 0xF0#8 n) s (respond v s) := by
  have hn : (Instr.rdreg n).wellFormed = true := wellFormed_of_readReg h
  have hd : decode (encode (.rdreg n)) = .ok (.rdreg n) := decode_encode_of_row (Laws.Encoding.rdreg n) hn
  exact takes_of_exec (cmd := encode (.rdreg n)) hd (exec_rdreg h)

/-! What a command writes -/

/-- The bytes a performed command emits, in order (R41, R110). -/
def emittedBy (i : Instr) (s : State) : List Byte :=
  match i with
  | .crcEmit => be32 (crcFinal s.crc)
  | .chunkType w => be32 s.len ++ be32 w
  | .chunkData b => [b]
  | .chunkData4 w => be32 w
  | .chunkEnd => be32 (crcFinal s.crc)
  | .serByte b => [b]
  | .serBe32 w => be32 w
  | .nop | .crcInit | .crcByte _ | .crcWord _ | .chunkLen _ | .rdreg _ | .clear => []

/-- OUT grows by the bytes the command emits. -/
theorem performed_out (i : Instr) (s : State) : (performed i s).out = s.out ++ emittedBy i s := by
  cases i with
  | rdreg n => cases h : readReg n s <;> simp [performed, State.out, outBytes_append, outBytes, emittedBy, h]
  | _ => simp [performed, State.out, outBytes_append, outBytes, emittedBy, -List.map_append]

/-- `outcnt` grows by the number of bytes the command emits; CLEAR alone sets it anew (R30). -/
theorem performed_outcnt {i : Instr} (hi : i ≠ .clear) (s : State) :
    (performed i s).outcnt = s.outcnt + BitVec.ofNat 32 (emittedBy i s).length := by
  cases i with
  | clear => exact absurd rfl hi
  | _ => simp [performed, emittedBy]

/-- The rows of R20 for the six data registers, for a command that is performed. -/
theorem performed_writes (i : Instr) (s : State) :
    ((performed i s).crc ≠ s.crc → i.op ∈ [0x01#8, 0x02#8, 0x03#8, 0x11#8, 0x12#8, 0x13#8, 0xFF#8]) ∧
    ((performed i s).len ≠ s.len → i.op ∈ [0x10#8, 0xFF#8]) ∧
    ((performed i s).lv ≠ s.lv → i.op ∈ [0x10#8, 0x11#8, 0xFF#8]) ∧
    ((performed i s).inchunk ≠ s.inchunk → i.op ∈ [0x11#8, 0x14#8, 0xFF#8]) ∧
    ((performed i s).rem ≠ s.rem → i.op ∈ [0x11#8, 0x12#8, 0x13#8, 0xFF#8]) ∧
    ((performed i s).type ≠ s.type → i.op ∈ [0x11#8, 0xFF#8]) := by
  cases i <;> simp [performed, Instr.op]

/-- Two states with the same error record (R27 to R29). -/
def SameErrorRecord (s t : State) : Prop := t.ecode = s.ecode ∧ t.eop = s.eop ∧ t.earg = s.earg

/-- No performed command but CLEAR writes the error record. -/
theorem performed_errorRecord {i : Instr} (hi : i ≠ .clear) (s : State) : SameErrorRecord s (performed i s) := by
  cases i with
  | clear => exact absurd rfl hi
  | _ => exact ⟨rfl, rfl, rfl⟩

/-- Everything a command can do to the error record: CLEAR, the pure error entry from normal state, or nothing. -/
theorem exec_errorRecord {i : Instr} {s t : State} (h : exec i s = .next t) :
    i = .clear ∨ (s.ecode = 0#4 ∧ t = errorEntry t.ecode i.op i.arg s) ∨ SameErrorRecord s t := by
  have hp : i = .clear ∨ SameErrorRecord s (performed i s) := (em _).imp_right (performed_errorRecord · s)
  rcases exec_cases h with ⟨e, h0, _, rfl⟩ | ⟨_, _, rfl⟩ | ⟨_, _, _, rfl⟩ | ⟨_, _, rfl⟩
  · exact .inr (.inl ⟨h0, by simp [errorEntry, raiseErr]⟩)
  · exact hp.imp_right .inr
  · exact hp.imp_right .inr
  · exact .inr (.inr ⟨rfl, rfl, rfl⟩)

/-- Where a part of the state that the error entry leaves alone has changed, the command was performed. -/
theorem eq_performed_of_change {α : Type} (f : State → α) {i : Instr} {s t : State}
    (hf : ∀ e cmd, f (raiseErr e cmd s) = f s) (h : exec i s = .next t) (hc : f t ≠ f s) : t = performed i s := by
  rcases exec_cases h with ⟨e, _, _, rfl⟩ | ⟨_, _, ht⟩ | ⟨_, _, _, ht⟩ | ⟨_, _, rfl⟩
  · exact absurd (hf e _) hc
  · exact ht
  · exact ht
  · exact absurd rfl hc

/-! Leaving the error state -/

/-- In the error state a word that does not decode is discarded (R132). -/
theorem takeIllFormed_of_error {s : State} (h : s.ecode ≠ 0#4) (e : DecodeError) (cmd : Command) :
    takeIllFormed e cmd s = s := if_neg h

/-- The word that takes the block out of the error state is CLEAR's (R138). -/
theorem takeCommand_leaves_error {cmd : Command} {s t : State} (h : takeCommand cmd s = .next t)
    (hs : s.ecode ≠ 0#4) (ht : t.ecode = 0#4) : cmd = mkCommand 0xFF#8 0#32 := by
  cases hd : decode cmd with
  | ok i =>
    rw [takeCommand_ok hd] at h
    rcases exec_errorRecord h with rfl | ⟨h0, _⟩ | ⟨he, _⟩
    · exact (encode_of_decode hd).symm
    · exact absurd h0 hs
    · exact absurd (he.symm.trans ht) hs
  | error e =>
    rw [takeCommand_error hd, takeIllFormed_of_error (s := { s with pos := s.pos + 1 }) hs] at h
    cases h
    exact absurd ht hs

/-- The moves that take the block out of the error state: CLEAR's word and the two forms of reset (R138). -/
theorem step_leaves_error {s t : State} (h : step s = .next t) (hs : s.ecode ≠ 0#4) (ht : t.ecode = 0#4) :
    ∃ rest, s.port = .offer (mkCommand 0xFF#8 0#32) :: rest ∨ s.port = .rst :: rest ∨
      ∃ cmd, s.port = .rstDuring cmd :: rest := by
  rcases step_cases h with rfl | ⟨_, _, _, rfl⟩ | ⟨_, _, _, rfl⟩ | ⟨rest, hp | ⟨cmd, hp, _⟩, _⟩ |
    ⟨cmd, rest, _, hp, _⟩ | ⟨cmd, rest, hp, _, hx⟩
  · exact absurd ht hs
  · exact absurd ht hs
  · exact absurd ht hs
  · exact ⟨rest, .inr (.inl hp)⟩
  · exact ⟨rest, .inr (.inr ⟨cmd, hp⟩)⟩
  · exact ⟨rest, .inr (.inr ⟨cmd, hp⟩)⟩
  · exact ⟨rest, .inl (takeCommand_leaves_error hx hs ht ▸ hp)⟩

/-! The statements -/

/-- Settles O6: taking a word always answers a next state, and it moves the position by 1 (R31). -/
theorem everyWordAdvancesThePositionByOne : Obligations.EveryWordAdvancesThePositionByOne := by
  intro s cmd rest hs
  obtain ⟨t, ht⟩ := takeCommand_next cmd { s with port := rest }
  obtain ⟨_, hpos, _, _, hport⟩ := takeCommand_keeps ht
  exact ⟨t, (step_offer_ready hs cmd rest).trans ht, hpos, hport⟩

/-- Settles O21: bit 2 of the status word is `err_o` (R33, R38), and only CLEAR's word and a reset leave the error
state (R138). -/
theorem errorLineFollowsTheErrorState : Obligations.ErrorLineFollowsTheErrorState := by
  refine ⟨fun s => ⟨(status_getLsbD s 2).symm, errO_iff s⟩, fun s t h hs ht => ?_⟩
  have ht' : t.ecode = 0#4 := by simpa [errO] using ht
  exact step_leaves_error h ((errO_iff s).mp hs) ht'

/-- Settles O28: a data register changes only where the command is performed, and then by its row of R20; the error
record by `exec_errorRecord`; and a performed command that leaves OUT alone emits nothing, so `outcnt` stays. -/
theorem registersAreWrittenOnlyByTheirCommands : Obligations.RegistersAreWrittenOnlyByTheirCommands := by
  refine ⟨fun i s t h => ?_, rfl, rfl, rfl, rfl, rfl, rfl, rfl, rfl, rfl, rfl⟩
  obtain ⟨hcrc, hlen, hlv, hinchunk, hrem, htype⟩ := performed_writes i s
  have hperf {α : Type} (f : State → α) (hf : ∀ e cmd, f (raiseErr e cmd s) = f s) (hc : f t ≠ f s) :
      t = performed i s := eq_performed_of_change f hf h hc
  refine ⟨fun hc => ?_, fun hc => ?_, fun hc => ?_, fun hc => ?_, fun hc => ?_, fun hc => ?_, fun hc => ?_,
    fun hc => ?_⟩
  · exact hcrc (hperf State.crc (fun _ _ => rfl) hc ▸ hc)
  · exact hlen (hperf State.len (fun _ _ => rfl) hc ▸ hc)
  · exact hlv (hperf State.lv (fun _ _ => rfl) hc ▸ hc)
  · exact hinchunk (hperf State.inchunk (fun _ _ => rfl) hc ▸ hc)
  · exact hrem (hperf State.rem (fun _ _ => rfl) hc ▸ hc)
  · exact htype (hperf State.type (fun _ _ => rfl) hc ▸ hc)
  · rcases exec_errorRecord h with hi | he | ⟨hcode, hop, harg⟩
    · exact .inl hi
    · exact .inr he
    · simp [hcode, hop, harg] at hc
  · obtain rfl := hperf State.outcnt (fun _ _ => rfl) hc
    by_contra hno
    obtain ⟨hout, hi⟩ : (performed i s).out = s.out ∧ i ≠ .clear := by simpa using hno
    have hnil : emittedBy i s = [] := by simpa [performed_out] using hout
    exact hc (by simp [performed_outcnt hi, hnil])

/-- Settles O22: the four single bits by `status_getLsbD`, the fields above them each by its own law, and RDREG 0
reads the status word (R34, R121). -/
theorem statusWordLayout : Obligations.StatusWordLayout := fun s =>
  ⟨status_getLsbD s 0, status_getLsbD s 1, by rw [status_getLsbD s 2]; exact errO_iff s, status_getLsbD s 3,
    status_ecode s, status_eop s, status_high s, takes_rdreg (n := 0#32) rfl⟩

end Sys2Proof.Machine
end

section
/-! The trace and its two projections (spec/20_memory.md): what a step adds to the trace, and which command responds. -/

namespace Sys2Proof.Machine

/-! What a step adds to the trace -/

/-- A reset during a command keeps what was there before the command and some of what the command added (R161). -/
theorem cutReset_trace (cut : Nat) (before : List Event) (t : State) :
    (cutReset cut before t).trace = before ++ (t.trace.drop before.length).take cut := rfl

/-- No step takes an event of the trace back (R43). -/
theorem step_trace {s t : State} (h : step s = .next t) : ∃ evs, t.trace = s.trace ++ evs := by
  have hsame : ∃ evs, s.trace = s.trace ++ evs := ⟨[], (List.append_nil _).symm⟩
  rcases step_cases h with rfl | ⟨_, _, _, rfl⟩ | ⟨_, _, _, rfl⟩ | ⟨_, _, rfl⟩ | ⟨_, _, u, _, _, _, rfl⟩ |
    ⟨_, _, _, _, hx⟩
  · exact hsame
  · exact hsame
  · exact hsame
  · exact hsame
  · exact ⟨_, cutReset_trace _ s.trace u⟩
  · exact (takeCommand_keeps hx).1

/-- Where events are appended to the trace, OUT grows by their bytes (R36). -/
theorem out_of_trace_append {s t : State} {evs : List Event} (h : t.trace = s.trace ++ evs) :
    t.out = s.out ++ outBytes evs := by
  rw [State.out, h, outBytes_append, State.out]

/-- Where events are appended to the trace, RESP grows by their words (R36). -/
theorem resp_of_trace_append {s t : State} {evs : List Event} (h : t.trace = s.trace ++ evs) :
    t.resp = s.resp ++ respWords evs := by
  rw [State.resp, h, respWords_append, State.resp]

/-! What a command responds -/

@[simp] theorem respond_resp (w : Word) (s : State) : (respond w s).resp = s.resp ++ [w] :=
  resp_of_trace_append (respond_trace w s)

/-- A performed command that changes RESP is RDREG of a register with a value (R42). -/
theorem rdreg_of_performed_resp_ne {i : Instr} {s : State} (h : (performed i s).resp ≠ s.resp) :
    ∃ n v, i = .rdreg n ∧ readReg n s = some v := by
  cases i with
  | rdreg n =>
    cases hv : readReg n s with
    | some v => exact ⟨n, v, rfl, hv⟩
    | none => exact absurd (by simp [performed, hv]) h
  | _ => exact absurd (by simp [performed, State.resp, respWords_append, respWords, -List.map_append]) h

/-- A command that runs as RDREG of a register with a value appends exactly that value to RESP (R121). -/
theorem resp_of_exec_rdreg {n v : Word} {s t : State} (hv : readReg n s = some v)
    (h : exec (.rdreg n) s = .next t) : t.resp = s.resp ++ [v] := by
  rw [exec_rdreg hv] at h
  cases h
  exact respond_resp v s

/-! The statements -/

/-- Settles O25: a step only appends events, and both projections of the trace distribute over appending. -/
theorem traceOnlyGrows : Obligations.TraceOnlyGrows := by
  intro s t h
  obtain ⟨evs, htrace⟩ := step_trace h
  exact ⟨evs, htrace, out_of_trace_append htrace, resp_of_trace_append htrace⟩

/-- Settles O26: RESP changes only where the command is performed, and then it is RDREG of a register with a value; a
number below 8 always names such a register, whose RDREG is performed in every state. -/
theorem onlyRdregResponds : Obligations.OnlyRdregResponds := by
  intro i s t h
  refine ⟨fun hc => ?_, fun n hi hn => ?_⟩
  · have ht : t = performed i s := eq_performed_of_change State.resp (fun _ _ => rfl) h hc
    obtain ⟨n, v, rfl, hv⟩ := rdreg_of_performed_resp_ne (ht ▸ hc)
    exact ⟨n, v, rfl, hv, resp_of_exec_rdreg hv h⟩
  · subst hi
    obtain ⟨v, hv⟩ : ∃ v, readReg n s = some v := by
      rw [← Option.isSome_iff_exists, readReg_isSome]
      exact decide_eq_true hn
    exact ⟨v, resp_of_exec_rdreg hv h⟩

end Sys2Proof.Machine
end

section
/-! The decoder's two refusals (spec/30_encoding.md R63, R64): which words it rejects and by what name, and what taking
a rejected word leads to. The laws first, then the statements. -/

namespace Sys2Proof.Machine

/-! Which words the decoder rejects -/

/-- The opcode map has a row exactly for the defined opcode bytes (R62). -/
theorem rowOf_eq_none_iff (op : Byte) : rowOf op = none ↔ op ∉ definedOps := by
  have hops : definedOps = opTable.map (·.op) := rfl
  simp [rowOf, hops]

/-- A form-B argument has a reserved bit set where it is no byte (R61). -/
theorem reservedZero_B_eq_false_iff (arg : Word) : reservedZero .B arg = false ↔ 0x100#32 ≤ arg := by
  have hhigh : (arg.extractLsb' 8 24).toNat = arg.toNat / 256 % 2 ^ 24 := by
    rw [BitVec.extractLsb'_toNat, Nat.shiftRight_eq_div_pow]
  rw [reservedZero, beq_eq_false_iff_ne, ne_eq, ← BitVec.toNat_inj, hhigh, BitVec.le_def, BitVec.toNat_ofNat,
    BitVec.toNat_ofNat]
  omega

/-- On a row of the opcode map, `ReservedSet` is the failure of that row's `ReservedZero` (R61, R64, R65). -/
theorem reservedSet_iff_of_mem {r : OpRow} (hr : r ∈ opTable) (arg : Word) :
    ReservedSet r.op arg ↔ reservedZero r.form arg = false := by
  have hZ : reservedZero .Z arg = false ↔ arg ≠ 0#32 := beq_eq_false_iff_ne
  have hB : reservedZero .B arg = false ↔ 0x100#32 ≤ arg := reservedZero_B_eq_false_iff arg
  have hW : reservedZero .W arg = true := rfl
  have hN : reservedZero .N arg = false ↔ 8#32 ≤ arg := by
    rw [reservedZero_N, decide_eq_false_iff_not, BitVec.not_lt]
  simp only [opTable, List.mem_cons, List.not_mem_nil, or_false] at hr
  rcases hr with rfl | rfl | rfl | rfl | rfl | rfl | rfl | rfl | rfl | rfl | rfl | rfl | rfl | rfl <;>
    simp [ReservedSet, hZ, hB, hW, hN]

/-- Only a defined opcode has reserved argument bits (R64). -/
theorem mem_definedOps_of_reservedSet {op : Byte} {arg : Word} (h : ReservedSet op arg) : op ∈ definedOps := by
  have hZ : [0x00#8, 0x01#8, 0x04#8, 0x14#8, 0xFF#8] ⊆ definedOps := by decide
  have hB : [0x02#8, 0x12#8, 0x20#8] ⊆ definedOps := by decide
  rcases h with ⟨hop, _⟩ | ⟨hop, _⟩ | ⟨rfl, _⟩
  · exact hZ hop
  · exact hB hop
  · decide

/-- The decoder rejects a word with an undefined opcode as ILLEGAL_OP, whatever its argument (R63). -/
theorem decode_illegalOp {op : Byte} (h : op ∉ definedOps) (arg : Word) :
    decode (mkCommand op arg) = .error .illegalOp := by
  rw [decode_mkCommand, (rowOf_eq_none_iff op).mpr h]

/-- The decoder rejects a defined opcode with a reserved argument bit set as RESERVED_ARG (R64). -/
theorem decode_reservedArg {op : Byte} {arg : Word} (h : ReservedSet op arg) :
    decode (mkCommand op arg) = .error .reservedArg := by
  rw [decode_mkCommand]
  cases hrow : rowOf op with
  | none => exact absurd (mem_definedOps_of_reservedSet h) ((rowOf_eq_none_iff op).mp hrow)
  | some r =>
    obtain ⟨hr, rfl⟩ := rowOf_some hrow
    have hz : reservedZero r.form arg = false := (reservedSet_iff_of_mem hr arg).mp h
    simp [hz]

/-! What taking a rejected word leads to -/

/-- In normal state a word that does not decode enters the error state with the code of its cause (R133, R135). -/
theorem takeIllFormed_of_normal {s : State} (h : s.ecode = 0#4) (e : DecodeError) (op : Byte) (arg : Word) :
    takeIllFormed e (mkCommand op arg) s = errorEntry (causeOf e).bits op arg s := by
  simp [takeIllFormed, h, raiseErr, errorEntry]

/-- A rejected word raises its cause in normal state and is discarded in the error state (R132, R133). -/
theorem takes_rejected {e : DecodeError} {op : Byte} {arg : Word} (h : decode (mkCommand op arg) = .error e)
    (s : State) :
    (s.ecode = 0#4 → Takes (mkCommand op arg) s (errorEntry (causeOf e).bits op arg s)) ∧
    (s.ecode ≠ 0#4 → Takes (mkCommand op arg) s s) := by
  have ht : Takes (mkCommand op arg) s (takeIllFormed e (mkCommand op arg) s) := takes_of_error h
  constructor
  · intro h0
    rwa [takeIllFormed_of_normal h0] at ht
  · intro h0
    rwa [takeIllFormed_of_error h0] at ht

/-! The statements -/

/-- Settles O12: a byte without a row decodes to ILLEGAL_OP, and a rejected word is raised or discarded; the 242 bytes
are counted. -/
theorem undefinedOpcodeIsIllegal : Obligations.UndefinedOpcodeIsIllegal :=
  ⟨fun s _ arg hop => takes_rejected (decode_illegalOp hop arg) s, by decide +kernel⟩

/-- Settles O13: a reserved bit set makes the row's `ReservedZero` fail, so the word decodes to RESERVED_ARG, and a
rejected word is raised or discarded. -/
theorem reservedArgumentBitsAreRefused : Obligations.ReservedArgumentBitsAreRefused :=
  fun s _ _ hset => takes_rejected (decode_reservedArg hset) s

end Sys2Proof.Machine
end

section
/-! The words of a data command (spec/60_exceptions.md R132 to R134): discarded in the error state, refused with a
reserved bit set, refused by the mode check, or performed. Every command of an idle-mode family follows its rule by
these laws. -/

namespace Sys2Proof.Machine

/-! In the error state -/

/-- The control commands, by opcode (R132). -/
theorem isControl_iff_op (i : Instr) : isControl i = true ↔ i.op ∈ [0x00#8, 0xF0#8, 0xFF#8] := by
  cases i <;> simp [isControl, Instr.op]

/-- In the error state a command that is no control command is discarded (R132). -/
theorem exec_discarded {i : Instr} (hc : isControl i = false) {s : State} (hs : s.ecode ≠ 0#4) :
    exec i s = .next s := by
  rw [exec_eq_perform]
  exact perform_discard hs (by simp [hc])

/-- In the error state every word whose opcode is no control command's is discarded, well-formed or not (R132). -/
theorem takes_discarded {op : Byte} (hop : op ∉ [0x00#8, 0xF0#8, 0xFF#8]) {s : State} (hs : s.ecode ≠ 0#4)
    (arg : Word) : Takes (mkCommand op arg) s s := by
  cases hd : decode (mkCommand op arg) with
  | error e => exact (takes_rejected hd s).2 hs
  | ok i =>
    have hi : i.op = op := by rw [← cmdOp_encode, encode_of_decode hd, cmdOp_mkCommand]
    have hc : isControl i = false := by
      rw [Bool.eq_false_iff, ne_eq, isControl_iff_op, hi]
      exact hop
    exact takes_of_exec hd (exec_discarded hc hs)

/-! In normal state -/

/-- In normal state a reserved bit set raises RESERVED_ARG (R133). -/
theorem takes_reservedArg {op : Byte} {arg : Word} (h : ReservedSet op arg) {s : State} (hs : s.ecode = 0#4) :
    Takes (mkCommand op arg) s (errorEntry 2#4 op arg s) :=
  (takes_rejected (decode_reservedArg h) s).1 hs

/-- In normal state the word of a well-formed command with an error enters the error state with that error's code and
the word's own two fields (R135). -/
theorem takes_firstError {i : Instr} (hrow : Laws.Encoding.Statement i) (hw : i.wellFormed = true) {s : State}
    (hs : s.ecode = 0#4) {e : ErrCode} (he : firstError i (ownError i s) s = some e) :
    Takes (encode i) s (errorEntry e.bits i.op i.arg s) := by
  have hx : exec i s = .next (errorEntry e.bits i.op i.arg s) := by
    rw [exec_eq_perform, perform_err hs he]
    simp [raiseErr, errorEntry]
  exact takes_of_exec (decode_encode_of_row hrow hw) hx

/-- In normal state a well-formed command without an error is performed, and so is its word (R45). -/
theorem exec_and_takes_performed {i : Instr} (hrow : Laws.Encoding.Statement i) (hw : i.wellFormed = true) {s : State}
    (hs : s.ecode = 0#4) (he : firstError i (ownError i s) s = none) :
    exec i s = .next (performed i s) ∧ Takes (encode i) s (performed i s) := by
  have hx : exec i s = .next (performed i s) := by rw [exec_eq_perform, perform_done hs he]
  exact ⟨hx, takes_of_exec (decode_encode_of_row hrow hw) hx⟩

/-! The commands admitted in idle mode only -/

/-- The first error of a well-formed idle-mode command: NOT_IDLE in chunk mode, its own checks' error in idle mode
(R134, R141). -/
theorem firstError_idleOnly {i : Instr} (hw : i.wellFormed = true) (hadm : admittedIn i = (true, false))
    (own : Option ErrCode) (s : State) : firstError i own s = if s.inchunk then some .notIdle else own := by
  cases hm : s.inchunk <;> simp [firstError, modeError, hw, hadm, hm]

/-- The word of an idle-mode command raises NOT_IDLE in chunk mode (R134). -/
theorem takes_notIdle {i : Instr} (hrow : Laws.Encoding.Statement i) (hw : i.wellFormed = true)
    (hadm : admittedIn i = (true, false)) {s : State} (hs : s.ecode = 0#4) (hm : s.inchunk = true) :
    Takes (encode i) s (errorEntry 3#4 i.op i.arg s) :=
  takes_firstError hrow hw hs (e := .notIdle) (by simp [firstError_idleOnly hw hadm, hm])

/-- An idle-mode command whose own checks pass is performed in idle mode (R134). -/
theorem exec_and_takes_idleOnly {i : Instr} (hrow : Laws.Encoding.Statement i) (hw : i.wellFormed = true)
    (hadm : admittedIn i = (true, false)) {s : State} (hs : s.ecode = 0#4) (hm : s.inchunk = false)
    (hown : ownError i s = none) : exec i s = .next (performed i s) ∧ Takes (encode i) s (performed i s) :=
  exec_and_takes_performed hrow hw hs (by simp [firstError_idleOnly hw hadm, hm, hown])

end Sys2Proof.Machine
end

section
/-! The CRC-32 generator (spec/41_crc.md): the CRC function as the reflected form of the polynomial, and the rules of
its four commands. The laws of bit reversal first, then the CRC function, then the statements. -/

namespace Sys2Proof.Machine

/-! Bit reversal -/

theorem reverse_xor {n : Nat} (x y : BitVec n) : (x ^^^ y).reverse = x.reverse ^^^ y.reverse := by
  ext k hk
  simp [BitVec.getElem_reverse]

/-- A shift right is a shift left of the reversed vector. -/
theorem reverse_ushiftRight {n : Nat} (x : BitVec n) (k : Nat) : (x >>> k).reverse = x.reverse <<< k := by
  ext j hj
  simp [BitVec.getElem_reverse, hj]

/-- The low byte of a word, reversed, is the reversed byte in the word's high byte. -/
theorem reverse_setWidth_byte (b : Byte) : (b.setWidth 32).reverse = b.reverse.setWidth 32 <<< 24 := by
  ext j hj
  by_cases h : j < 24
  · simp [BitVec.getElem_reverse, h]
  · have hge : 24 ≤ j := Nat.le_of_not_lt h
    simp [BitVec.getElem_reverse, BitVec.getLsbD_reverse, h, hge]

/-! The CRC function -/

/-- The loop of R80 as an iterate. -/
theorem crcBits_eq_iterate (n : Nat) (c : Word) : crcBits n c = crcBit^[n] c := by
  induction n generalizing c with
  | zero => rfl
  | succ n ih => exact ih (crcBit c)

/-- One turn of the loop of R80 is one turn of the most significant bit first register on the reversed word: 0xEDB88320
is 0x04C11DB7 reversed. -/
theorem reverse_crcBit (c : Word) : (crcBit c).reverse = msbCrcBit c.reverse := by
  have hpoly : Config.crcPolyReflected.reverse = 0x04C11DB7#32 := by decide +kernel
  have htop : c.reverse.getLsbD 31 = c.getLsbD 0 := by
    rw [BitVec.getLsbD_reverse]
    rfl
  rw [crcBit, msbCrcBit, htop]
  cases c.getLsbD 0 with
  | true => simp [reverse_xor, reverse_ushiftRight, hpoly]
  | false => simp [reverse_ushiftRight]

/-- `CrcByte` with every bit order reversed is eight turns of the most significant bit first register (R80). -/
theorem reverse_crcByte (c : Word) (b : Byte) :
    (crcByte c b).reverse = msbCrcBit^[8] (c.reverse ^^^ (b.reverse.setWidth 32 <<< 24)) := by
  have hsemi : Function.Semiconj BitVec.reverse crcBit msbCrcBit := reverse_crcBit
  rw [crcByte, crcBits_eq_iterate, (hsemi.iterate_right 8).eq, reverse_xor, reverse_setWidth_byte]

/-- Absorbing the four bytes of a word, byte 0 first (R84). -/
theorem crcFold_be32 (c w : Word) : crcFold c (be32 w) = crcWordOf c w := rfl

/-! The statements -/

/-- Settles O44: the loop is `crcBit` iterated, and bit reversal carries it to the polynomial's normal form. -/
theorem crcByteIsTheReflectedPolynomialStep : Obligations.CrcByteIsTheReflectedPolynomialStep := by
  refine ⟨fun c b => ⟨crcBits_eq_iterate 8 _, ?_⟩, rfl, fun _ => rfl⟩
  rw [← reverse_crcByte, BitVec.reverse_reverse_eq]

/-- Settles O33: the reserved bits of form Z are refused by the decoder, chunk mode by the mode check. -/
theorem crcInitFollowsItsRule : Obligations.CrcInitFollowsItsRule := by
  intro s arg
  refine ⟨fun hs => ?_, fun hs harg => ?_, fun hs hm => ?_, fun hs hm => ?_⟩
  · exact takes_discarded (by decide) hs arg
  · exact takes_reservedArg (.inl ⟨by decide, harg⟩) hs
  · exact takes_notIdle Laws.Encoding.crcInit rfl rfl hs hm
  · exact exec_and_takes_idleOnly Laws.Encoding.crcInit rfl rfl hs hm rfl

/-- Settles O34: an argument that is no byte is refused by the decoder, chunk mode by the mode check. -/
theorem crcByteFollowsItsRule : Obligations.CrcByteFollowsItsRule := by
  intro s arg b
  refine ⟨fun hs => ?_, fun hs harg => ?_, fun hs hm => ?_, fun hs hm => ?_⟩
  · exact takes_discarded (by decide) hs arg
  · exact takes_reservedArg (.inr (.inl ⟨by decide, harg⟩)) hs
  · exact takes_notIdle (Laws.Encoding.crcByte b) rfl rfl hs hm
  · exact exec_and_takes_idleOnly (Laws.Encoding.crcByte b) rfl rfl hs hm rfl

/-- Settles O35: every argument is well-formed, and the bytes absorbed are those of `crcFold_be32`. -/
theorem crcWordFollowsItsRule : Obligations.CrcWordFollowsItsRule := by
  intro s w
  refine ⟨fun hs => ?_, fun hs hm => ?_, fun hs hm => ?_⟩
  · exact takes_discarded (by decide) hs w
  · exact takes_notIdle (Laws.Encoding.crcWord w) rfl rfl hs hm
  · rw [← crcFold_be32]
    exact exec_and_takes_idleOnly (Laws.Encoding.crcWord w) rfl rfl hs hm rfl

/-- Settles O36: the reserved bits of form Z are refused by the decoder, chunk mode by the mode check; the bytes
emitted are the final CRC's. -/
theorem crcEmitFollowsItsRule : Obligations.CrcEmitFollowsItsRule := by
  intro s arg
  refine ⟨fun hs => ?_, fun hs harg => ?_, fun hs hm => ?_, fun hs hm => ?_⟩
  · exact takes_discarded (by decide) hs arg
  · exact takes_reservedArg (.inl ⟨by decide, harg⟩) hs
  · exact takes_notIdle Laws.Encoding.crcEmit rfl rfl hs hm
  · exact exec_and_takes_idleOnly Laws.Encoding.crcEmit rfl rfl hs hm rfl

end Sys2Proof.Machine
end

section
/-! The chunk encoder (spec/42_chunk.md): the words of a command admitted in chunk mode only, each command's own checks
as the conditions they test, and the rules of the five commands. The laws first, then the statements. -/

namespace Sys2Proof.Machine

/-! The mode check -/

/-- In idle mode the mode check passes an idle-mode command (R134). -/
theorem modeError_idleOnly {i : Instr} (hadm : admittedIn i = (true, false)) {s : State} (hm : s.inchunk = false) :
    modeError i s.inchunk = none := by
  simp [modeError, hadm, hm]

/-- In chunk mode the mode check passes a chunk-mode command (R134). -/
theorem modeError_chunkOnly {i : Instr} (hadm : admittedIn i = (false, true)) {s : State} (hm : s.inchunk = true) :
    modeError i s.inchunk = none := by
  simp [modeError, hadm, hm]

/-- The word of a chunk-mode command raises NOT_IN_CHUNK in idle mode (R134). -/
theorem takes_notInChunk {i : Instr} (hrow : Laws.Encoding.Statement i) (hw : i.wellFormed = true)
    (hadm : admittedIn i = (false, true)) {s : State} (hs : s.ecode = 0#4) (hm : s.inchunk = false) :
    Takes (encode i) s (errorEntry 4#4 i.op i.arg s) :=
  takes_firstError hrow hw hs (e := .notInChunk) (by simp [firstError, modeError, hw, hadm, hm])

/-! A command the mode check admits -/

/-- Where the mode check passes, the first error of a well-formed command is its own checks' error (R141). -/
theorem firstError_of_admitted {i : Instr} (hw : i.wellFormed = true) {s : State}
    (hmode : modeError i s.inchunk = none) (own : Option ErrCode) : firstError i own s = own := by
  simp [firstError, hw, hmode]

/-- The word of an admitted command whose own checks fail raises their error. -/
theorem takes_ownError {i : Instr} (hrow : Laws.Encoding.Statement i) (hw : i.wellFormed = true) {s : State}
    (hs : s.ecode = 0#4) (hmode : modeError i s.inchunk = none) {e : ErrCode} (hown : ownError i s = some e) :
    Takes (encode i) s (errorEntry e.bits i.op i.arg s) :=
  takes_firstError hrow hw hs ((firstError_of_admitted hw hmode _).trans hown)

/-- An admitted command whose own checks pass is performed, and so is its word. -/
theorem exec_and_takes_admitted {i : Instr} (hrow : Laws.Encoding.Statement i) (hw : i.wellFormed = true) {s : State}
    (hs : s.ecode = 0#4) (hmode : modeError i s.inchunk = none) (hown : ownError i s = none) :
    exec i s = .next (performed i s) ∧ Takes (encode i) s (performed i s) :=
  exec_and_takes_performed hrow hw hs ((firstError_of_admitted hw hmode _).trans hown)

/-! The commands' own checks -/

/-- A declared length above the maximum is BAD_LENGTH (R91). -/
theorem chunkLenError_of_gt {w : Word} (h : 0x7FFFFFFF#32 < w) : chunkLenError w = some .badLength := if_pos h

/-- A declared length up to the maximum passes (R91). -/
theorem chunkLenError_of_le {w : Word} (h : w ≤ 0x7FFFFFFF#32) : chunkLenError w = none :=
  if_neg (BitVec.not_lt.mpr h)

/-- The model's tag check is `LetterTag` (R93). -/
theorem validTag_iff (w : Word) : validTag w = true ↔ LetterTag w := by
  simp [validTag, Config.typeCheck, LetterTag, isLetter]

/-- Without a declared length CHUNK.TYPE fails with NO_LENGTH, whatever the tag (R92). -/
theorem chunkTypeError_of_not_lv {s : State} (h : s.lv = false) (w : Word) :
    chunkTypeError w s = some .noLength := if_pos h

/-- With a length declared, a byte that is no letter is BAD_TYPE (R93). -/
theorem chunkTypeError_of_not_letterTag {s : State} (h : s.lv = true) {w : Word} (hw : ¬ LetterTag w) :
    chunkTypeError w s = some .badType := by
  have htag : validTag w = false := by rwa [Bool.eq_false_iff, ne_eq, validTag_iff]
  simp [chunkTypeError, h, htag]

/-- With a length declared, a tag of letters passes (R92, R93). -/
theorem chunkTypeError_of_letterTag {s : State} (h : s.lv = true) {w : Word} (hw : LetterTag w) :
    chunkTypeError w s = none := by
  have htag : validTag w = true := (validTag_iff w).mpr hw
  simp [chunkTypeError, h, htag]

/-- Fewer bytes due than the command sends is OVERRUN (R94, R95). -/
theorem contentError_of_lt {k : Word} {s : State} (h : s.rem < k) : contentError k s = some .overrun := if_pos h

/-- At least as many bytes due as the command sends passes (R94, R95). -/
theorem contentError_of_le {k : Word} {s : State} (h : k ≤ s.rem) : contentError k s = none :=
  if_neg (BitVec.not_lt.mpr h)

/-- Bytes still due at CHUNK.END are UNDERRUN (R96). -/
theorem chunkEndError_of_ne {s : State} (h : s.rem ≠ 0#32) : chunkEndError s = some .underrun := if_pos h

/-- With nothing due CHUNK.END passes (R96). -/
theorem chunkEndError_of_eq {s : State} (h : s.rem = 0#32) : chunkEndError s = none := if_neg (not_not_intro h)

/-! The statements -/

/-- Settles O37: chunk mode is refused by the mode check, a length above 0x7FFFFFFF by CHUNK.LEN's own check. -/
theorem chunkLenFollowsItsRule : Obligations.ChunkLenFollowsItsRule := by
  intro s w
  have hrow : Laws.Encoding.Statement (.chunkLen w) := Laws.Encoding.chunkLen w
  refine ⟨fun hs => ?_, fun hs hm => ?_, fun hs hm hlen => ?_, fun hs hm hlen => ?_⟩
  · exact takes_discarded (by decide) hs w
  · exact takes_notIdle hrow rfl rfl hs hm
  · exact takes_ownError hrow rfl hs (modeError_idleOnly rfl hm) (chunkLenError_of_gt hlen)
  · exact exec_and_takes_idleOnly hrow rfl rfl hs hm (chunkLenError_of_le hlen)

/-- Settles O38: the mode check, then NO_LENGTH, then BAD_TYPE; a tag of letters with a length declared starts the
chunk, and `crc` restarts over the bytes of `crcFold_be32`. -/
theorem chunkTypeFollowsItsRule : Obligations.ChunkTypeFollowsItsRule := by
  intro s w
  have hrow : Laws.Encoding.Statement (.chunkType w) := Laws.Encoding.chunkType w
  refine ⟨fun hs => ?_, fun hs hm => ?_, fun hs hm hlv => ?_, fun hs hm hlv htag => ?_, fun hs hm hlv htag => ?_⟩
  · exact takes_discarded (by decide) hs w
  · exact takes_notIdle hrow rfl rfl hs hm
  · exact takes_ownError hrow rfl hs (modeError_idleOnly rfl hm) (chunkTypeError_of_not_lv hlv w)
  · exact takes_ownError hrow rfl hs (modeError_idleOnly rfl hm) (chunkTypeError_of_not_letterTag hlv htag)
  · rw [← crcFold_be32]
    exact exec_and_takes_idleOnly hrow rfl rfl hs hm (chunkTypeError_of_letterTag hlv htag)

/-- Settles O39: an argument that is no byte is refused by the decoder, idle mode by the mode check; OVERRUN's
`rem < 1` is `rem = 0`. -/
theorem chunkDataFollowsItsRule : Obligations.ChunkDataFollowsItsRule := by
  intro s arg b
  have hrow : Laws.Encoding.Statement (.chunkData b) := Laws.Encoding.chunkData b
  refine ⟨fun hs => ?_, fun hs harg => ?_, fun hs hm => ?_, fun hs hm hrem => ?_, fun hs hm hrem => ?_⟩
  · exact takes_discarded (by decide) hs arg
  · exact takes_reservedArg (.inr (.inl ⟨by decide, harg⟩)) hs
  · exact takes_notInChunk hrow rfl rfl hs hm
  · have hlt : s.rem < 1#32 := by simp [hrem]
    exact takes_ownError hrow rfl hs (modeError_chunkOnly rfl hm) (contentError_of_lt hlt)
  · have hle : 1#32 ≤ s.rem := by bv_omega
    exact exec_and_takes_admitted hrow rfl hs (modeError_chunkOnly rfl hm) (contentError_of_le hle)

/-- Settles O40: every argument is well-formed; idle mode is refused by the mode check, fewer than four bytes due by
CHUNK.DATA4's own check. -/
theorem chunkData4FollowsItsRule : Obligations.ChunkData4FollowsItsRule := by
  intro s w
  have hrow : Laws.Encoding.Statement (.chunkData4 w) := Laws.Encoding.chunkData4 w
  refine ⟨fun hs => ?_, fun hs hm => ?_, fun hs hm hrem => ?_, fun hs hm hrem => ?_⟩
  · exact takes_discarded (by decide) hs w
  · exact takes_notInChunk hrow rfl rfl hs hm
  · exact takes_ownError hrow rfl hs (modeError_chunkOnly rfl hm) (contentError_of_lt hrem)
  · rw [← crcFold_be32]
    exact exec_and_takes_admitted hrow rfl hs (modeError_chunkOnly rfl hm) (contentError_of_le hrem)

/-- Settles O41: the reserved bits of form Z are refused by the decoder, idle mode by the mode check, bytes still due
by CHUNK.END's own check; the bytes emitted are the final CRC's. -/
theorem chunkEndFollowsItsRule : Obligations.ChunkEndFollowsItsRule := by
  intro s arg
  have hrow : Laws.Encoding.Statement .chunkEnd := Laws.Encoding.chunkEnd
  refine ⟨fun hs => ?_, fun hs harg => ?_, fun hs hm => ?_, fun hs hm hrem => ?_, fun hs hm hrem => ?_⟩
  · exact takes_discarded (by decide) hs arg
  · exact takes_reservedArg (.inl ⟨by decide, harg⟩) hs
  · exact takes_notInChunk hrow rfl rfl hs hm
  · exact takes_ownError hrow rfl hs (modeError_chunkOnly rfl hm) (chunkEndError_of_ne hrem)
  · exact exec_and_takes_admitted hrow rfl hs (modeError_chunkOnly rfl hm) (chunkEndError_of_eq hrem)

end Sys2Proof.Machine
end

section
/-! The big-endian serializer (spec/43_serializer.md): the rules of its two commands, and the output primitive
`EmitBE32` they share with the chunk encoder. -/

namespace Sys2Proof.Machine

/-- The events of a word, as R110 writes them out. -/
theorem be32_map_out (w : Word) :
    (be32 w).map Event.out = [.out (w.extractLsb' 24 8), .out (w.extractLsb' 16 8), .out (w.extractLsb' 8 8),
      .out (w.extractLsb' 0 8)] := rfl

/-! The statements -/

/-- Settles O42: an argument that is no byte is refused by the decoder, chunk mode by the mode check. -/
theorem serByteFollowsItsRule : Obligations.SerByteFollowsItsRule := by
  intro s arg b
  have hrow : Laws.Encoding.Statement (.serByte b) := Laws.Encoding.serByte b
  refine ⟨fun hs => ?_, fun hs harg => ?_, fun hs hm => ?_, fun hs hm => ?_⟩
  · exact takes_discarded (by decide) hs arg
  · exact takes_reservedArg (.inr (.inl ⟨by decide, harg⟩)) hs
  · exact takes_notIdle hrow rfl rfl hs hm
  · exact exec_and_takes_idleOnly hrow rfl rfl hs hm rfl

/-- Settles O43: every argument is well-formed, chunk mode is refused by the mode check; the bytes emitted are those of
`be32_map_out`. -/
theorem serBe32FollowsItsRule : Obligations.SerBe32FollowsItsRule := by
  intro s w
  have hrow : Laws.Encoding.Statement (.serBe32 w) := Laws.Encoding.serBe32 w
  refine ⟨fun hs => ?_, fun hs hm => ?_, fun hs hm => ?_⟩
  · exact takes_discarded (by decide) hs w
  · exact takes_notIdle hrow rfl rfl hs hm
  · rw [← be32_map_out]
    exact exec_and_takes_idleOnly hrow rfl rfl hs hm rfl

/-- Settles O46: `emitBe32` folds `emit` over the bytes of `be32`, whose record update is `emitBe32_eq`. -/
theorem emitBe32IsFourEmits : Obligations.EmitBe32IsFourEmits :=
  fun w s => ⟨rfl, emitBe32_eq w s⟩

end Sys2Proof.Machine
end

section
/-! The control commands (spec/44_control.md): performed in both modes and in the error state, and refused or discarded
only where a reserved argument bit is set. The laws first, then the statements. -/

namespace Sys2Proof.Machine

/-- A well-formed control command is performed in every state, and so is its word (R132, R134). -/
theorem exec_and_takes_control {i : Instr} (hrow : Laws.Encoding.Statement i) (hc : isControl i = true)
    (hw : i.wellFormed = true) (s : State) : exec i s = .next (performed i s) ∧ Takes (encode i) s (performed i s) :=
  have hx : exec i s = .next (performed i s) := exec_control hc hw s
  ⟨hx, takes_of_exec (decode_encode_of_row hrow hw) hx⟩

/-- In the error state a word with a reserved argument bit set is discarded, a control command's too (R132, R136). -/
theorem takes_reservedArg_discarded {op : Byte} {arg : Word} (h : ReservedSet op arg) {s : State}
    (hs : s.ecode ≠ 0#4) : Takes (mkCommand op arg) s s :=
  (takes_rejected (decode_reservedArg h) s).2 hs

/-- Each register number of R34 reads its register. -/
theorem readReg_of_mem {n v : Word} {s : State}
    (h : (n, v) ∈ [(0#32, status s), (1#32, s.crc), (2#32, s.crc ^^^ 0xFFFFFFFF#32), (3#32, s.len), (4#32, s.rem),
      (5#32, s.type), (6#32, s.outcnt), (7#32, s.earg)]) : readReg n s = some v := by
  simp only [List.mem_cons, Prod.mk.injEq, List.not_mem_nil, or_false] at h
  rcases h with ⟨rfl, rfl⟩ | ⟨rfl, rfl⟩ | ⟨rfl, rfl⟩ | ⟨rfl, rfl⟩ | ⟨rfl, rfl⟩ | ⟨rfl, rfl⟩ | ⟨rfl, rfl⟩ | ⟨rfl, rfl⟩ <;>
    rfl

/-! The statements -/

/-- Settles O31: each number of the table reads its register, which RDREG responds with in every state; a number that
names no register is refused by the decoder. -/
theorem rdregFollowsItsRule : Obligations.RdregFollowsItsRule := by
  intro s n v
  refine ⟨fun hmem => ?_, fun hn hs => ?_, fun hn hs => ?_⟩
  · have hread : readReg n s = some v := readReg_of_mem hmem
    exact ⟨exec_rdreg hread, takes_rdreg hread⟩
  · exact takes_reservedArg (.inr (.inr ⟨rfl, hn⟩)) hs
  · exact takes_reservedArg_discarded (.inr (.inr ⟨rfl, hn⟩)) hs

/-- Settles O32: CLEAR is a control command whose effect is the reset column of R20, and the decoder refuses its word
where the argument is not 0. -/
theorem clearFollowsItsRule : Obligations.ClearFollowsItsRule := by
  intro s arg
  obtain ⟨hexec, htakes⟩ := exec_and_takes_control Laws.Encoding.clear rfl rfl s
  refine ⟨hexec, htakes, fun hs harg => ?_, fun hs harg => ?_⟩
  · exact takes_reservedArg (.inl ⟨by decide, harg⟩) hs
  · exact takes_reservedArg_discarded (.inl ⟨by decide, harg⟩) hs

/-- Settles O30: NOP is a control command without an effect, and the decoder refuses its word where the argument is
not 0. -/
theorem nopFollowsItsRule : Obligations.NopFollowsItsRule := by
  intro s arg
  obtain ⟨hexec, htakes⟩ := exec_and_takes_control Laws.Encoding.nop rfl rfl s
  refine ⟨hexec, htakes, fun hs harg => ?_, fun hs harg => ?_⟩
  · exact takes_reservedArg (.inl ⟨by decide, harg⟩) hs
  · exact takes_reservedArg_discarded (.inl ⟨by decide, harg⟩) hs

end Sys2Proof.Machine
end

section
/-! Exceptions (spec/60_exceptions.md): the cause of every error code, what raises it, and how the error state is left.
The laws first, then the statements. -/

namespace Sys2Proof.Machine

/-! The commands and the words they come from -/

/-- Every command has its row of the opcode map (R62). -/
theorem encoding_statement (i : Instr) : Laws.Encoding.Statement i :=
  match i with
  | .nop => Laws.Encoding.nop
  | .crcInit => Laws.Encoding.crcInit
  | .crcByte b => Laws.Encoding.crcByte b
  | .crcWord w => Laws.Encoding.crcWord w
  | .crcEmit => Laws.Encoding.crcEmit
  | .chunkLen w => Laws.Encoding.chunkLen w
  | .chunkType w => Laws.Encoding.chunkType w
  | .chunkData b => Laws.Encoding.chunkData b
  | .chunkData4 w => Laws.Encoding.chunkData4 w
  | .chunkEnd => Laws.Encoding.chunkEnd
  | .serByte b => Laws.Encoding.serByte b
  | .serBe32 w => Laws.Encoding.serBe32 w
  | .rdreg n => Laws.Encoding.rdreg n
  | .clear => Laws.Encoding.clear

/-- The decoder answers well-formed commands only (R65). -/
theorem wellFormed_of_decode {cmd : Command} {i : Instr} (h : decode cmd = .ok i) : i.wellFormed = true := by
  obtain ⟨r, hr, _, hz⟩ := encoding_statement i
  rw [← encode_of_decode h, encode, decode_mkCommand, hr] at h
  by_contra hw
  simp [hz, hw] at h

/-- A word the decoder accepts carries its command's two fields (R60). -/
theorem op_arg_of_decode {op : Byte} {arg : Word} {i : Instr} (h : decode (mkCommand op arg) = .ok i) :
    i.op = op ∧ i.arg = arg := by
  have henc : encode i = mkCommand op arg := encode_of_decode h
  exact ⟨by rw [← cmdOp_encode, henc, cmdOp_mkCommand], by rw [← cmdArg_encode, henc, cmdArg_mkCommand]⟩

/-- A word is rejected for the reason R63 or R64 gives. -/
theorem cause_of_decode_error {op : Byte} {arg : Word} {e : DecodeError} (h : decode (mkCommand op arg) = .error e) :
    (e = .illegalOp ∧ op ∉ definedOps) ∨ (e = .reservedArg ∧ ReservedSet op arg) := by
  rw [decode_mkCommand] at h
  cases hrow : rowOf op with
  | none =>
    simp only [hrow, Except.error.injEq] at h
    exact .inl ⟨h.symm, (rowOf_eq_none_iff op).mp hrow⟩
  | some r =>
    obtain ⟨hr, rfl⟩ := rowOf_some hrow
    cases hz : reservedZero r.form arg with
    | true => simp [hrow, hz] at h
    | false =>
      simp only [hrow, hz, Bool.false_eq_true, if_false, Except.error.injEq] at h
      exact .inr ⟨h.symm, (reservedSet_iff_of_mem hr arg).mpr hz⟩

/-- A defined opcode without a reserved bit set is the word of a well-formed command (R65). -/
theorem exists_command {op : Byte} {arg : Word} (hop : op ∈ definedOps) (harg : ¬ ReservedSet op arg) :
    ∃ i : Instr, i.wellFormed = true ∧ i.op = op ∧ i.arg = arg := by
  cases hd : decode (mkCommand op arg) with
  | ok i => exact ⟨i, wellFormed_of_decode hd, op_arg_of_decode hd⟩
  | error e =>
    rcases cause_of_decode_error hd with ⟨_, h⟩ | ⟨_, h⟩
    · exact absurd hop h
    · exact absurd h harg

/-- The commands admitted in idle mode only, by opcode (R134). -/
theorem mem_idleOps_iff (i : Instr) : i.op ∈ idleOps ↔ admittedIn i = (true, false) := by
  cases i <;> simp [idleOps, Instr.op, admittedIn]

/-- The commands admitted in chunk mode only, by opcode (R134). -/
theorem mem_chunkOps_iff (i : Instr) : i.op ∈ chunkOps ↔ admittedIn i = (false, true) := by
  cases i <;> simp [chunkOps, Instr.op, admittedIn]

/-! The cause of an error -/

/-- The table of R130: the commands that raise an error, and the cause they raise it for. -/
def RaisedFor (e : ErrCode) (op : Byte) (arg : Word) (s : State) : Prop :=
  match e with
  | .illegalOp => op ∉ definedOps
  | .reservedArg => ReservedSet op arg
  | .notIdle => op ∈ idleOps ∧ s.inchunk = true
  | .notInChunk => op ∈ chunkOps ∧ s.inchunk = false
  | .noLength => op = 0x11#8 ∧ s.lv = false
  | .badLength => op = 0x10#8 ∧ 0x7FFFFFFF#32 < arg
  | .badType => op = 0x11#8 ∧ ¬ LetterTag arg
  | .overrun => (op = 0x12#8 ∧ s.rem = 0#32) ∨ (op = 0x13#8 ∧ s.rem < 4#32)
  | .underrun => op = 0x14#8 ∧ s.rem ≠ 0#32

/-- No two errors have the same code (R130). -/
theorem errCode_bits_injective : Function.Injective ErrCode.bits := by
  intro e k
  cases e <;> cases k <;> decide

/-- A command is refused in one mode at most (R134). -/
theorem admittedIn_cases (i : Instr) :
    admittedIn i = (true, true) ∨ admittedIn i = (true, false) ∨ admittedIn i = (false, true) := by
  cases i <;> simp [admittedIn]

/-- The mode check raises its two errors for their causes (R134). -/
theorem raisedFor_of_modeError {i : Instr} {s : State} {e : ErrCode} (h : modeError i s.inchunk = some e) :
    RaisedFor e i.op i.arg s := by
  rcases admittedIn_cases i with hadm | hadm | hadm
  · cases hm : s.inchunk <;> simp [modeError, hadm, hm] at h
  · cases hm : s.inchunk with
    | false => simp [modeError, hadm, hm] at h
    | true =>
      obtain rfl : .notIdle = e := by simpa [modeError, hadm, hm] using h
      exact ⟨(mem_idleOps_iff i).mpr hadm, hm⟩
  · cases hm : s.inchunk with
    | true => simp [modeError, hadm, hm] at h
    | false =>
      obtain rfl : .notInChunk = e := by simpa [modeError, hadm, hm] using h
      exact ⟨(mem_chunkOps_iff i).mpr hadm, hm⟩

/-- A command's own checks raise their errors for their causes (R91, R92, R94 to R96). -/
theorem raisedFor_of_ownError {i : Instr} {s : State} {e : ErrCode} (h : ownError i s = some e) :
    RaisedFor e i.op i.arg s := by
  cases i with
  | chunkLen w =>
    obtain ⟨hw, rfl⟩ : Config.maxChunkLen < w ∧ .badLength = e := by simpa [ownError, chunkLenError] using h
    exact ⟨rfl, hw⟩
  | chunkType w =>
    rw [ownError] at h
    cases hlv : s.lv with
    | false =>
      cases (chunkTypeError_of_not_lv hlv w).symm.trans h
      exact ⟨rfl, hlv⟩
    | true =>
      by_cases htag : LetterTag w
      · cases (chunkTypeError_of_letterTag hlv htag).symm.trans h
      · cases (chunkTypeError_of_not_letterTag hlv htag).symm.trans h
        exact ⟨rfl, htag⟩
  | chunkData b =>
    obtain ⟨hrem, rfl⟩ : s.rem < 1#32 ∧ .overrun = e := by simpa [ownError, contentError] using h
    exact .inl ⟨rfl, by bv_omega⟩
  | chunkData4 w =>
    obtain ⟨hrem, rfl⟩ : s.rem < 4#32 ∧ .overrun = e := by simpa [ownError, contentError] using h
    exact .inr ⟨rfl, hrem⟩
  | chunkEnd =>
    obtain ⟨hrem, rfl⟩ : s.rem ≠ 0#32 ∧ .underrun = e := by simpa [ownError, chunkEndError] using h
    exact ⟨rfl, hrem⟩
  | _ => cases h

/-- The error a well-formed command raises is raised for its cause (R141). -/
theorem raisedFor_of_firstError {i : Instr} (hw : i.wellFormed = true) {s : State} {e : ErrCode}
    (h : firstError i (ownError i s) s = some e) : RaisedFor e i.op i.arg s := by
  rw [firstError, if_pos hw] at h
  cases hmode : modeError i s.inchunk with
  | none => exact raisedFor_of_ownError (by simpa [hmode] using h)
  | some k =>
    obtain rfl : k = e := by simpa [hmode] using h
    exact raisedFor_of_modeError hmode

/-- The code that an error wrote tells which error it was (R130). -/
theorem raisedFor_of_code {c : BitVec 4} {op : Byte} {arg : Word} {s : State}
    (h : c ≠ 0#4 → ∃ e : ErrCode, RaisedFor e op arg s ∧ c = e.bits) {k : ErrCode} (hk : c = k.bits) :
    RaisedFor k op arg s := by
  obtain ⟨e, he, hc⟩ := h (hk ▸ k.bits_range.1)
  exact errCode_bits_injective (hc.symm.trans hk) ▸ he

/-! Error entry -/

/-- In normal state a command with an error enters the error state and does nothing else (R135). -/
theorem exec_firstError {i : Instr} {s : State} (hs : s.ecode = 0#4) {e : ErrCode}
    (he : firstError i (ownError i s) s = some e) : exec i s = .next (errorEntry e.bits i.op i.arg s) := by
  rw [exec_eq_perform, perform_err hs he]
  simp [raiseErr, errorEntry]

/-- Performing a command never raises an error (R45). -/
theorem performed_normal (i : Instr) {s : State} (hs : s.ecode = 0#4) : (performed i s).ecode = 0#4 := by
  by_cases hi : i = .clear
  · rw [hi]
    rfl
  · exact (performed_errorRecord hi s).1.trans hs

/-- A well-formed command that leads from normal state to the error state raised an error for its cause, and the error
entry is all it did (R130, R135). -/
theorem exec_raises {i : Instr} (hw : i.wellFormed = true) {s t : State} (hs : s.ecode = 0#4)
    (h : exec i s = .next t) (ht : t.ecode ≠ 0#4) :
    ∃ e : ErrCode, RaisedFor e i.op i.arg s ∧ t = errorEntry e.bits i.op i.arg s := by
  rcases exec_cases h with ⟨e, _, he, rfl⟩ | ⟨_, _, rfl⟩ | ⟨h0, _⟩ | ⟨h0, _⟩
  · exact ⟨e, raisedFor_of_firstError hw he, by simp [raiseErr, errorEntry]⟩
  · exact absurd (performed_normal i hs) ht
  · exact absurd hs h0
  · exact absurd hs h0

/-- A word that leads from normal state to the error state raised an error for its cause, and the error entry is all it
did besides being taken (R130, R135). -/
theorem step_raises {s t : State} {op : Byte} {arg : Word} {rest : List HostMove} (hs : s.ecode = 0#4)
    (h : step { s with port := .offer (mkCommand op arg) :: rest } = .next t) (ht : t.ecode ≠ 0#4) :
    ∃ e : ErrCode, RaisedFor e op arg s ∧
      t = { errorEntry e.bits op arg s with port := rest, pos := s.pos + 1 } := by
  cases hstall : portStalled s with
  | true =>
    rw [step_offer_stalled hstall] at h
    cases h
    exact absurd hs ht
  | false =>
    rw [step_offer_ready hstall] at h
    cases hd : decode (mkCommand op arg) with
    | ok i =>
      obtain ⟨rfl, rfl⟩ := op_arg_of_decode hd
      rw [takeCommand_ok hd] at h
      exact exec_raises (wellFormed_of_decode hd) (s := { s with port := rest, pos := s.pos + 1 }) hs h ht
    | error e =>
      rw [takeCommand_error hd, takeIllFormed_of_normal (s := { s with port := rest, pos := s.pos + 1 }) hs] at h
      cases h
      rcases cause_of_decode_error hd with ⟨rfl, hcause⟩ | ⟨rfl, hcause⟩
      · exact ⟨.illegalOp, hcause, rfl⟩
      · exact ⟨.reservedArg, hcause, rfl⟩

/-! In the error state -/

/-- The model's reset of the registers is the reset column of R20; the host's drained counts stay (R37). -/
theorem clearRegs_eq_registersReset {s t : State} (ho : t.outTaken = s.outTaken) (hr : t.respTaken = s.respTaken) :
    clearRegs t = registersReset { s with trace := t.trace, pos := t.pos, port := t.port } := by
  simp [clearRegs, registersReset, Config.crcInit, ho, hr]

/-- CLEAR's word resets the registers (R122). -/
theorem takeCommand_clear (s : State) :
    takeCommand (mkCommand 0xFF#8 0#32) s = .next (clearRegs { s with pos := s.pos + 1 }) :=
  (takeCommand_ok (decode_encode_of_row Laws.Encoding.clear rfl) s).trans (exec_control rfl rfl _)

/-- A step that leaves the error state leaves every register at its reset value (R138). -/
theorem registersReset_of_leaves_error {s t : State} (h : step s = .next t) (hs : s.ecode ≠ 0#4)
    (ht : t.ecode = 0#4) : t = registersReset { s with trace := t.trace, pos := t.pos, port := t.port } := by
  rcases step_cases h with rfl | ⟨_, _, _, rfl⟩ | ⟨_, _, _, rfl⟩ | ⟨_, _, rfl⟩ | ⟨_, _, u, _, _, hu, rfl⟩ |
    ⟨_, _, _, _, hx⟩
  · exact absurd ht hs
  · exact absurd ht hs
  · exact absurd ht hs
  · exact clearRegs_eq_registersReset rfl rfl
  · obtain ⟨_, _, ho, hr, _⟩ := takeCommand_keeps hu
    exact clearRegs_eq_registersReset ho hr
  · rw [takeCommand_leaves_error hx hs ht, takeCommand_clear] at hx
    cases hx
    exact clearRegs_eq_registersReset rfl rfl

/-- In the error state a word keeps the error record, or is CLEAR's and empties it (R136, R138). -/
theorem takeCommand_errorRecord {cmd : Command} {s t : State} (h : takeCommand cmd s = .next t)
    (hs : s.ecode ≠ 0#4) : SameErrorRecord s t ∨ t.ecode = 0#4 := by
  cases hd : decode cmd with
  | ok i =>
    rw [takeCommand_ok hd] at h
    rcases exec_errorRecord h with rfl | ⟨h0, _⟩ | hsame
    · rw [exec_control rfl rfl] at h
      cases h
      exact .inr rfl
    · exact absurd h0 hs
    · exact .inl hsame
  | error e =>
    rw [takeCommand_error hd, takeIllFormed_of_error (s := { s with pos := s.pos + 1 }) hs] at h
    cases h
    exact .inl ⟨rfl, rfl, rfl⟩

/-! The statements -/

/-- Settles O8: with no move at the ports the step waits. -/
theorem idlePortKeepsEverything : Obligations.IdlePortKeepsEverything := fun _ hport => step_waits hport

/-- Settles O14: the well-formed control commands are performed in every state; any other word either has another
opcode or, in the error state, is discarded for a reserved bit. -/
theorem errorStateFiltersCommands : Obligations.ErrorStateFiltersCommands := by
  intro s hs
  refine ⟨(exec_and_takes_control Laws.Encoding.nop rfl rfl s).2,
    (exec_and_takes_control Laws.Encoding.clear rfl rfl s).2, fun n v hv => takes_rdreg hv, fun n hn => ?_,
    fun op arg hnop hclear hrdreg => ?_⟩
  · rw [← Option.isSome_iff_exists, readReg_isSome]
    exact decide_eq_true hn
  · by_cases hop : op ∈ [0x00#8, 0xF0#8, 0xFF#8]
    · have hset : ReservedSet op arg := by
        simp only [List.mem_cons, List.not_mem_nil, or_false] at hop
        rcases hop with rfl | rfl | rfl
        · exact .inl ⟨by decide, fun harg => hnop ⟨rfl, harg⟩⟩
        · exact .inr (.inr ⟨rfl, BitVec.not_lt.mp fun harg => hrdreg ⟨rfl, harg⟩⟩)
        · exact .inl ⟨by decide, fun harg => hclear ⟨rfl, harg⟩⟩
      exact takes_reservedArg_discarded hset hs
    · exact takes_discarded hop hs arg

/-- Settles O15: a refused command's first error is the mode check's; a code 3 or 4 would have the refused mode as its
cause, against the admission. -/
theorem modeCheckFollowsTheTable : Obligations.ModeCheckFollowsTheTable := by
  intro i s hs hw
  refine ⟨fun hop hm => ?_, fun hop hm => ?_, fun hidle hchunk => ?_⟩
  · have hadm : admittedIn i = (true, false) := (mem_idleOps_iff i).mp hop
    exact exec_firstError hs (e := .notIdle) (by simp [firstError_idleOnly hw hadm, hm])
  · have hadm : admittedIn i = (false, true) := (mem_chunkOps_iff i).mp hop
    exact exec_firstError hs (e := .notInChunk) (by simp [firstError, modeError, hw, hadm, hm])
  · obtain ⟨t, ht⟩ := exec_next i s
    have hcause : t.ecode ≠ 0#4 → ∃ e : ErrCode, RaisedFor e i.op i.arg s ∧ t.ecode = e.bits := fun h0 =>
      (exec_raises hw hs ht h0).imp fun _ ⟨he, hte⟩ => ⟨he, hte ▸ rfl⟩
    refine ⟨t, ht, fun h3 => ?_, fun h4 => ?_⟩
    · obtain ⟨hop, hm⟩ : i.op ∈ idleOps ∧ s.inchunk = true := raisedFor_of_code hcause (k := .notIdle) h3
      simp [hidle hop] at hm
    · obtain ⟨hop, hm⟩ : i.op ∈ chunkOps ∧ s.inchunk = false := raisedFor_of_code hcause (k := .notInChunk) h4
      simp [hchunk hop] at hm

/-- Settles O16: the error entry is all that a word that raises an error does. -/
theorem errorEntryChangesOnlyTheErrorRecord : Obligations.ErrorEntryChangesOnlyTheErrorRecord := by
  intro s t op arg rest hs h ht
  obtain ⟨e, _, rfl⟩ := step_raises hs h ht
  rfl

/-- Settles O17: the decoder's two errors, then the mode check on the command of the word, then the command's own
checks in the order of its rule. -/
theorem firstApplicableErrorIsRaised : Obligations.FirstApplicableErrorIsRaised := by
  intro s op arg hs
  have hidle : idleOps ⊆ definedOps := by decide
  have hchunk : chunkOps ⊆ definedOps := by decide
  refine ⟨fun hop => ?_, fun hset => ?_, fun hop hset hm => ?_, fun hop hset hm => ?_, fun hop hm hlv => ?_,
    fun hop hm hlv htag => ?_, fun hop hm hlen => ?_, fun hop hset hm hrem => ?_, fun hop hm hrem => ?_,
    fun hop hset hm hrem => ?_⟩
  · exact (takes_rejected (decode_illegalOp hop arg) s).1 hs
  · exact takes_reservedArg hset hs
  · obtain ⟨i, hw, rfl, rfl⟩ := exists_command (hidle hop) hset
    exact takes_notIdle (encoding_statement i) hw ((mem_idleOps_iff i).mp hop) hs hm
  · obtain ⟨i, hw, rfl, rfl⟩ := exists_command (hchunk hop) hset
    exact takes_notInChunk (encoding_statement i) hw ((mem_chunkOps_iff i).mp hop) hs hm
  · subst hop
    exact takes_ownError (Laws.Encoding.chunkType arg) rfl hs (modeError_idleOnly rfl hm)
      (chunkTypeError_of_not_lv hlv arg)
  · subst hop
    exact takes_ownError (Laws.Encoding.chunkType arg) rfl hs (modeError_idleOnly rfl hm)
      (chunkTypeError_of_not_letterTag hlv htag)
  · subst hop
    exact takes_ownError (Laws.Encoding.chunkLen arg) rfl hs (modeError_idleOnly rfl hm) (chunkLenError_of_gt hlen)
  · subst hop
    have hbyte : reservedZero .B arg = true := by
      rw [← Bool.not_eq_false, reservedZero_B_eq_false_iff]
      exact fun harg => hset (.inr (.inl ⟨by decide, harg⟩))
    obtain ⟨b, rfl⟩ : ∃ b : Byte, b.setWidth 32 = arg := ⟨argByte arg, setWidth_argByte hbyte⟩
    have hlt : s.rem < 1#32 := by simp [hrem]
    exact takes_ownError (Laws.Encoding.chunkData b) rfl hs (modeError_chunkOnly rfl hm) (contentError_of_lt hlt)
  · subst hop
    exact takes_ownError (Laws.Encoding.chunkData4 arg) rfl hs (modeError_chunkOnly rfl hm) (contentError_of_lt hrem)
  · subst hop
    obtain rfl : arg = 0#32 := by_contra fun harg => hset (.inl ⟨by decide, harg⟩)
    exact takes_ownError Laws.Encoding.chunkEnd rfl hs (modeError_chunkOnly rfl hm) (chunkEndError_of_ne hrem)

/-- Settles O18: a code that is not 0 comes with an error raised for its cause, and the code tells which error. -/
theorem errorCodesMatchTheirCauses : Obligations.ErrorCodesMatchTheirCauses := by
  intro s t op arg rest hs h
  have hraise : t.ecode ≠ 0#4 → ∃ e : ErrCode, RaisedFor e op arg s ∧
      t = { errorEntry e.bits op arg s with port := rest, pos := s.pos + 1 } := step_raises hs h
  have hcause (k : ErrCode) (hk : t.ecode = k.bits) : RaisedFor k op arg s :=
    raisedFor_of_code (fun h0 => (hraise h0).imp fun _ ⟨he, hte⟩ => ⟨he, hte ▸ rfl⟩) hk
  refine ⟨?_, fun h0 => ?_, hcause .illegalOp, hcause .reservedArg, hcause .notIdle, hcause .notInChunk,
    hcause .noLength, hcause .badLength, hcause .badType, hcause .overrun, hcause .underrun⟩
  · by_cases h0 : t.ecode = 0#4
    · simp [h0]
    · obtain ⟨e, _, rfl⟩ := hraise h0
      exact e.bits_range.2
  · obtain ⟨e, _, rfl⟩ := hraise h0
    exact ⟨rfl, rfl⟩

/-- Settles O19: the three moves that leave the error state, each of which resets the registers. -/
theorem onlyClearAndResetLeaveTheErrorState : Obligations.OnlyClearAndResetLeaveTheErrorState :=
  fun _ _ h hs ht => ⟨step_leaves_error h hs ht, registersReset_of_leaves_error h hs ht⟩

/-- Settles O20: waiting and draining keep the error record, a reset empties it, and a word does one of the two. -/
theorem errorsDoNotNest : Obligations.ErrorsDoNotNest := by
  intro s t h hs
  rcases step_cases h with rfl | ⟨_, _, _, rfl⟩ | ⟨_, _, _, rfl⟩ | ⟨_, _, rfl⟩ | ⟨_, _, _, _, _, _, rfl⟩ |
    ⟨_, rest, _, _, hx⟩
  · exact .inl ⟨rfl, rfl, rfl⟩
  · exact .inl ⟨rfl, rfl, rfl⟩
  · exact .inl ⟨rfl, rfl, rfl⟩
  · exact .inr rfl
  · exact .inr rfl
  · exact takeCommand_errorRecord (s := { s with port := rest }) hx hs

end Sys2Proof.Machine
end

section
/-! The encoding read in both directions (spec/30_encoding.md R60 to R65, R69), and what the assembler makes of a number
and of a byte list (R67, R68). -/

namespace Sys2Proof.Machine

/-! The opcode map in both directions -/

/-- Settles O1: every command has its row of the opcode map, which decodes its word to it. -/
theorem decodeInvertsEncode : Obligations.DecodeInvertsEncode :=
  fun i hw => decode_encode_of_row (encoding_statement i) hw

/-- Settles O2: a row builds well-formed commands only, each encoded as the word it was built from. -/
theorem encodeInvertsDecode : Obligations.EncodeInvertsDecode :=
  fun _ _ h => ⟨wellFormed_of_decode h, encode_of_decode h⟩

/-- Settles O3: a word with an undefined opcode or a reserved bit set is rejected, and any other is the word of a
well-formed command, which it decodes to. -/
theorem decoderAcceptsExactlyWellFormedWords : Obligations.DecoderAcceptsExactlyWellFormedWords := by
  intro op arg
  constructor
  · rintro ⟨i, hi⟩
    refine ⟨?_, fun hset => ?_⟩
    · by_contra hop
      cases (decode_illegalOp hop arg).symm.trans hi
    · cases (decode_reservedArg hset).symm.trans hi
  · rintro ⟨hop, hset⟩
    obtain ⟨i, hw, rfl, rfl⟩ := exists_command hop hset
    exact ⟨i, decode_encode_of_row (encoding_statement i) hw⟩

/-- Settles O4: the words are evaluated. -/
theorem sampleWordsDecode : Obligations.SampleWordsDecode := by
  unfold Obligations.SampleWordsDecode
  decide +kernel

/-! Operands and byte lists -/

/-- Settles O54: inside the field's range the operand is the number modulo a power it lies below. -/
theorem assemblerNeverTruncates : Obligations.AssemblerNeverTruncates := by
  intro cs n hn
  have hbyte : n ≤ 255 → n % 2 ^ 8 = n := fun h => Nat.mod_eq_of_lt (by omega)
  have hword : n ≤ 0xFFFFFFFF → n % 2 ^ 32 = n := fun h => Nat.mod_eq_of_lt (by omega)
  constructor
  · by_cases h : n ≤ 255
    · simpa [asmByte, hn, h] using hbyte h
    · simp [asmByte, hn, h]
  · by_cases h : n ≤ 0xFFFFFFFF
    · simpa [asmWord, hn, h] using hword h
    · simp [asmWord, hn, h]

/-- The word of four bytes has these four bytes (R44, R110). -/
@[simp] theorem be32_ofBytes (b0 b1 b2 b3 : Byte) : be32 (ofBytes b0 b1 b2 b3) = [b0, b1, b2, b3] := by
  have h16 : ∀ k, ¬ 16 + k < 8 ∧ ¬ 16 + k - 8 < 8 ∧ 16 + k - 8 - 8 = k := fun k => by omega
  have h24 : ∀ k, ¬ 24 + k < 8 ∧ ¬ 24 + k - 8 < 8 ∧ ¬ 24 + k - 8 - 8 < 8 ∧ 24 + k - 8 - 8 - 8 = k := fun k => by omega
  simp only [be32, ofBytes, List.cons.injEq, and_true]
  refine ⟨?_, ?_, ?_, ?_⟩ <;>
    · apply BitVec.eq_of_getLsbD_eq
      intro k hk
      simp only [BitVec.getLsbD_extractLsb', BitVec.getLsbD_append]
      simp [hk, h16, h24]

section ByteGroups

variable {four : Word → Instr} {one : Byte → Instr}

/-- The expansion of a byte list carries the bytes in order (R68). -/
theorem flatMap_byteGroups {carried : Instr → List Byte} (hfour : ∀ w, carried (four w) = be32 w)
    (hone : ∀ b, carried (one b) = [b]) : ∀ bs : List Byte, (byteGroups four one bs).flatMap carried = bs
  | a :: b :: c :: d :: rest => by simp [byteGroups, hfour, flatMap_byteGroups hfour hone rest]
  | [] => by simp [byteGroups]
  | [_] => by simp [byteGroups, hone]
  | [_, _] => by simp [byteGroups, hone]
  | [_, _, _] => by simp [byteGroups, hone]

/-- The expansion takes fours while at least four bytes remain, then ones (R68). -/
theorem length_byteGroups : ∀ bs : List Byte, (byteGroups four one bs).length = bs.length / 4 + bs.length % 4
  | a :: b :: c :: d :: rest => by
    simp only [byteGroups, List.length_cons, length_byteGroups rest]
    omega
  | [] => by simp [byteGroups]
  | [_] => by simp [byteGroups]
  | [_, _] => by simp [byteGroups]
  | [_, _, _] => by simp [byteGroups]

/-- The expansion holds only commands of the two kinds. -/
theorem forall_mem_byteGroups {p : Instr → Prop} (hfour : ∀ w, p (four w)) (hone : ∀ b, p (one b)) :
    ∀ bs : List Byte, ∀ i ∈ byteGroups four one bs, p i
  | a :: b :: c :: d :: rest => by
    simpa [byteGroups, hfour] using forall_mem_byteGroups hfour hone rest
  | [] => by simp [byteGroups]
  | [_] => by simp [byteGroups, hone]
  | [_, _] => by simp [byteGroups, hone]
  | [_, _, _] => by simp [byteGroups, hone]

end ByteGroups

/-- Settles O53: each expansion is `byteGroups` of a command that carries four bytes and one that carries one. -/
theorem pseudoInstructionsCarryTheListedBytes : Obligations.PseudoInstructionsCarryTheListedBytes := by
  intro bs
  refine ⟨?_, ?_, ?_, ?_, ?_, ?_, by decide⟩
  · exact flatMap_byteGroups (fun _ => rfl) (fun _ => rfl) bs
  · exact flatMap_byteGroups (fun _ => rfl) (fun _ => rfl) bs
  · exact flatMap_byteGroups (fun _ => rfl) (fun _ => rfl) bs
  · exact length_byteGroups bs
  · exact forall_mem_byteGroups (p := (contentPhase · = true)) (fun _ => rfl) (fun _ => rfl) bs
  · exact forall_mem_byteGroups (p := (crcPhase · = true)) (fun _ => rfl) (fun _ => rfl) bs

/-- Settles O47: the bytes are the quotients by the powers of 256, modulo 256. -/
theorem bigEndianBytesGiveTheWordBack : Obligations.BigEndianBytesGiveTheWordBack := by
  intro v
  refine ⟨_, _, _, _, rfl, ?_⟩
  simp only [BitVec.extractLsb'_toNat, Nat.shiftRight_eq_div_pow]
  omega

end Sys2Proof.Machine
end

section
/-! The invariants of spec/10_state.md R35, R22, R28 and R29: what keeps them, from the single effect up to the step. -/

namespace Sys2Proof.Machine

/-! A command that passes its checks -/

/-- A command has no error exactly where it is well-formed, the mode check passes it and its own checks pass (R141). -/
theorem firstError_eq_none_iff {i : Instr} {own : Option ErrCode} {s : State} :
    firstError i own s = none ↔ i.wellFormed = true ∧ modeError i s.inchunk = none ∧ own = none := by
  cases hw : i.wellFormed <;> simp [firstError, hw]

/-- Only chunk mode passes a chunk-mode command (R134). -/
theorem inchunk_of_modeError {i : Instr} (hadm : admittedIn i = (false, true)) {m : Bool}
    (h : modeError i m = none) : m = true := by
  cases m with
  | true => rfl
  | false => simp [modeError, hadm] at h

/-- Only idle mode passes an idle-mode command (R134). -/
theorem idle_of_modeError {i : Instr} (hadm : admittedIn i = (true, false)) {m : Bool}
    (h : modeError i m = none) : m = false := by
  cases m with
  | false => rfl
  | true => simp [modeError, hadm] at h

theorem chunkLenError_eq_none_iff {w : Word} : chunkLenError w = none ↔ w ≤ 0x7FFFFFFF#32 := by
  simp [chunkLenError, Config.maxChunkLen]

theorem contentError_eq_none_iff {k : Word} {s : State} : contentError k s = none ↔ k ≤ s.rem := by
  simp [contentError]

theorem chunkEndError_eq_none_iff {s : State} : chunkEndError s = none ↔ s.rem = 0#32 := by
  simp [chunkEndError]

/-! What keeps the invariants -/

variable {s t : State}

/-- The invariants do not speak of `crc`, `type`, `outcnt`, the trace or the ports. -/
theorem Inv.of_unread (h : Inv s) (crc type outcnt : Word) (tr : List Event) (q a b : Nat) (p : List HostMove) :
    Inv { s with
      crc := crc, type := type, outcnt := outcnt, trace := tr, pos := q, outTaken := a, respTaken := b, port := p } :=
  ⟨h.idle_nothing_due, h.declared_only_idle, h.due_le_declared, h.declared_le_max, h.code_in_table,
    h.no_error_no_record⟩

theorem inv_clearRegs (s : State) : Inv (clearRegs s) := by
  constructor <;> simp

theorem inv_raiseErr (h : Inv s) (e : ErrCode) (cmd : Command) : Inv (raiseErr e cmd s) :=
  ⟨h.idle_nothing_due, h.declared_only_idle, h.due_le_declared, h.declared_le_max, e.bits_range.2,
    fun h0 => absurd h0 e.bits_range.1⟩

/-- In chunk mode, fewer bytes may be due. -/
theorem Inv.of_rem_le (h : Inv s) (hm : s.inchunk = true) {r : Word} (hr : r ≤ s.rem) : Inv { s with rem := r } :=
  ⟨fun hidle => absurd (hidle.symm.trans hm) (by decide), h.declared_only_idle,
    fun _ => BitVec.le_trans hr (h.due_le_declared hm), h.declared_le_max, h.code_in_table, h.no_error_no_record⟩

/-- A command that sends content bytes takes them off the bytes due (R94, R95). -/
theorem Inv.of_content (h : Inv s) (hm : s.inchunk = true) {k : Word} (hk : contentError k s = none) :
    Inv { s with rem := s.rem - k } := by
  have hle : k ≤ s.rem := contentError_eq_none_iff.mp hk
  exact h.of_rem_le hm (by bv_omega)

/-- A performed command keeps the invariants: the control commands in every state, the others where their checks
pass. -/
theorem inv_performed {i : Instr} (h : Inv s)
    (hok : isControl i = false → modeError i s.inchunk = none ∧ ownError i s = none) : Inv (performed i s) := by
  cases i with
  | clear => exact inv_clearRegs s
  | chunkLen w =>
    obtain ⟨hmode, hown⟩ := hok rfl
    have hm : s.inchunk = false := idle_of_modeError rfl hmode
    exact ⟨h.idle_nothing_due, fun _ => hm, fun hc => absurd (hm.symm.trans hc) (by decide),
      chunkLenError_eq_none_iff.mp hown, h.code_in_table, h.no_error_no_record⟩
  | chunkType w =>
    exact ⟨fun hidle => absurd hidle (by simp [performed]), fun hlv => absurd hlv (by simp [performed]),
      fun _ => BitVec.le_refl _, h.declared_le_max, h.code_in_table, h.no_error_no_record⟩
  | chunkData b =>
    obtain ⟨hmode, hown⟩ := hok rfl
    exact (h.of_content (inchunk_of_modeError rfl hmode) hown).of_unread _ _ _ _ _ _ _ _
  | chunkData4 w =>
    obtain ⟨hmode, hown⟩ := hok rfl
    exact (h.of_content (inchunk_of_modeError rfl hmode) hown).of_unread _ _ _ _ _ _ _ _
  | chunkEnd =>
    obtain ⟨_, hown⟩ := hok rfl
    exact ⟨fun _ => chunkEndError_eq_none_iff.mp hown, fun _ => rfl, fun hc => absurd hc (by simp [performed]),
      h.declared_le_max, h.code_in_table, h.no_error_no_record⟩
  | nop => exact h
  | crcInit | crcByte | crcWord | crcEmit | serByte | serBe32 | rdreg => exact h.of_unread _ _ _ _ _ _ _ _

/-- A command keeps the invariants, whether it is performed, raises an error or is discarded. -/
theorem inv_exec {i : Instr} (h : Inv s) (hx : exec i s = .next t) : Inv t := by
  rcases exec_cases hx with ⟨e, _, _, rfl⟩ | ⟨_, hfirst, rfl⟩ | ⟨_, hcontrol, _, rfl⟩ | ⟨_, _, rfl⟩
  · exact inv_raiseErr h e _
  · exact inv_performed h fun _ => (firstError_eq_none_iff.mp hfirst).2
  · exact inv_performed h fun hno => absurd (hno.symm.trans hcontrol) (by decide)
  · exact h

/-- A word taken keeps the invariants, well-formed or not. -/
theorem inv_takeCommand {cmd : Command} (h : Inv s) (hx : takeCommand cmd s = .next t) : Inv t := by
  have hpos : Inv { s with pos := s.pos + 1 } := h.of_unread _ _ _ _ _ _ _ _
  cases hd : decode cmd with
  | ok i => exact inv_exec hpos ((takeCommand_ok hd s).symm.trans hx)
  | error e =>
    rw [takeCommand_error hd] at hx
    cases hx
    unfold takeIllFormed
    split
    · exact inv_raiseErr hpos _ cmd
    · exact hpos

/-! The statements -/

/-- Settles O23: waiting and draining leave the registers, a reset of either form clears them, and a word taken keeps
the invariants. -/
theorem everyStepKeepsTheInvariants : Obligations.EveryStepKeepsTheInvariants := by
  intro s t h hstep
  rcases step_cases hstep with rfl | ⟨_, _, _, rfl⟩ | ⟨_, _, _, rfl⟩ | ⟨_, _, rfl⟩ | ⟨_, _, _, _, _, _, rfl⟩ |
    ⟨_, rest, _, _, hx⟩
  · exact h
  · exact h.of_unread _ _ _ _ _ _ _ _
  · exact h.of_unread _ _ _ _ _ _ _ _
  · exact inv_clearRegs _
  · exact inv_clearRegs _
  · have hrest : Inv { s with port := rest } := h.of_unread _ _ _ _ _ _ _ _
    exact inv_takeCommand hrest hx

/-- Settles O24: the reset state is a state with its registers cleared. -/
theorem resetStateHasTheInvariants : Obligations.ResetStateHasTheInvariants := inv_clearRegs State.reset

/-- In chunk mode, a performed command that passed its checks takes its content bytes off the bytes due, ends a chunk
of which nothing is due, or is CLEAR. -/
theorem performed_counts_content {i : Instr} (hm : s.inchunk = true) (hmode : modeError i s.inchunk = none)
    (hown : ownError i s = none) :
    ((performed i s).inchunk = true ∧ (performed i s).rem.toNat + (contentOf i).length = s.rem.toNat) ∨
    (i = .chunkEnd ∧ s.rem = 0#32 ∧ (performed i s).rem = 0#32 ∧ (performed i s).inchunk = false) ∨ i = .clear := by
  have hidle : admittedIn i ≠ (true, false) := fun hadm =>
    absurd ((idle_of_modeError hadm hmode).symm.trans hm) (by decide)
  cases i with
  | clear => exact .inr (.inr rfl)
  | chunkEnd =>
    have hrem : s.rem = 0#32 := chunkEndError_eq_none_iff.mp hown
    exact .inr (.inl ⟨rfl, hrem, hrem, rfl⟩)
  | chunkData b =>
    have hle : 1#32 ≤ s.rem := contentError_eq_none_iff.mp hown
    exact .inl ⟨hm, by simp only [performed, contentOf, List.length_singleton]; bv_omega⟩
  | chunkData4 w =>
    have hle : 4#32 ≤ s.rem := contentError_eq_none_iff.mp hown
    exact .inl ⟨hm, by simp only [performed, contentOf, be32_length]; bv_omega⟩
  | nop | rdreg => exact .inl ⟨hm, rfl⟩
  | crcInit | crcByte | crcWord | crcEmit | chunkLen | chunkType | serByte | serBe32 => exact absurd rfl hidle

/-- Settles O52: a command that leaves no error was performed, from normal state or, as CLEAR alone, from the error
state. -/
theorem contentIsCountedToTheDeclaredLength : Obligations.ContentIsCountedToTheDeclaredLength := by
  intro s t i hm hx ht
  rcases exec_cases hx with ⟨e, _, _, rfl⟩ | ⟨_, hfirst, rfl⟩ | ⟨h0, _, _, rfl⟩ | ⟨h0, _, rfl⟩
  · exact absurd ht e.bits_range.1
  · obtain ⟨_, hmode, hown⟩ := firstError_eq_none_iff.mp hfirst
    exact performed_counts_content hm hmode hown
  · by_cases hi : i = .clear
    · exact .inr (.inr hi)
    · exact absurd ((performed_errorRecord hi s).1.symm.trans ht) h0
  · exact absurd ht h0

end Sys2Proof.Machine
end

section
/-! The step as a whole: it always answers, a stall only delays, draining ends every stall, what a reset leaves, what a
word taken reads and counts (spec/20_memory.md, spec/60_exceptions.md, spec/70_reset_and_hazards.md). The laws first,
then the statements. -/

namespace Sys2Proof.Machine

/-! A reset during a command -/

/-- A reset during a command on a stalled port is a reset between commands (R160, R161). -/
theorem step_rstDuring_stalled {s : State} (h : portStalled s = true) (cmd : Command) (rest : List HostMove) :
    step { s with port := .rstDuring cmd :: rest } = .next (clearRegs { s with port := rest }) :=
  (step_rstDuring s cmd rest).trans (if_pos h)

/-- A reset during a command that is being taken cuts that command's events (R161). -/
theorem step_rstDuring_ready {s u : State} (h : portStalled s = false) {cmd : Command} {rest : List HostMove}
    (hu : takeCommand cmd { s with port := rest } = .next u) :
    step { s with port := .rstDuring cmd :: rest } = .next (cutReset (Config.resetCut s.pos) s.trace u) := by
  rw [step_rstDuring, h, takeCommandCut, hu]
  rfl

/-- Both forms of reset during a command leave every register at its reset value (R160). -/
theorem step_rstDuring_registersReset (s : State) (cmd : Command) (rest : List HostMove) :
    ∃ t, step { s with port := .rstDuring cmd :: rest } = .next t ∧
      t = registersReset { s with trace := t.trace, pos := t.pos, port := t.port } := by
  cases hstall : portStalled s with
  | true => exact ⟨_, step_rstDuring_stalled hstall cmd rest, clearRegs_eq_registersReset rfl rfl⟩
  | false =>
    obtain ⟨u, hu⟩ := takeCommand_next cmd { s with port := rest }
    obtain ⟨_, _, hout, hresp, _⟩ := takeCommand_keeps hu
    exact ⟨_, step_rstDuring_ready hstall hu, clearRegs_eq_registersReset hout hresp⟩

/-! Every step answers -/

/-- A word offered always gets an answer: it waits or is taken. -/
theorem step_offer_next (s : State) (cmd : Command) (rest : List HostMove) :
    ∃ t, step { s with port := .offer cmd :: rest } = .next t := by
  cases hstall : portStalled s with
  | true => exact ⟨_, step_offer_stalled hstall cmd rest⟩
  | false =>
    rw [step_offer_ready hstall]
    exact takeCommand_next cmd _

/-- A step always answers, by the first move to come. -/
theorem step_next (s : State) : ∃ t, step s = .next t := by
  have hport : ∀ moves, ∃ t, step { s with port := moves } = .next t := fun moves =>
    match moves with
    | [] => ⟨_, step_waits rfl⟩
    | .offer cmd :: rest => step_offer_next s cmd rest
    | .takeOut :: rest => by
      rw [step_takeOut]
      split
      · exact ⟨_, rfl⟩
      · exact ⟨_, rfl⟩
    | .takeResp :: rest => by
      rw [step_takeResp]
      split
      · exact ⟨_, rfl⟩
      · exact ⟨_, rfl⟩
    | .rst :: rest => ⟨_, step_rst s rest⟩
    | .rstDuring cmd :: rest => (step_rstDuring_registersReset s cmd rest).imp fun _ h => h.1
  exact hport s.port

/-! What a word taken reads -/

/-- A performed command adds the same events to every trace, and reads none of it. -/
theorem performed_of_trace (i : Instr) (s : State) : ∃ evs : List Event, (performed i s).trace = s.trace ++ evs ∧
    ∀ tr, performed i { s with trace := tr } = { performed i s with trace := tr ++ evs } := by
  cases i with
  | nop | crcInit | crcByte | crcWord | chunkLen | clear =>
    exact ⟨[], (List.append_nil _).symm, fun tr => by simp [performed, clearRegs]⟩
  | crcEmit | chunkType | chunkData | chunkData4 | chunkEnd | serByte | serBe32 | rdreg => exact ⟨_, rfl, fun _ => rfl⟩

/-- A command adds the same events to every trace, and reads none of it. -/
theorem exec_of_trace {i : Instr} {s t : State} (h : exec i s = .next t) : ∃ evs, t.trace = s.trace ++ evs ∧
    ∀ tr, exec i { s with trace := tr } = .next { t with trace := tr ++ evs } := by
  obtain ⟨evs, htrace, hperf⟩ := performed_of_trace i s
  have hown (tr : List Event) : ownError i { s with trace := tr } = ownError i s := by cases i <;> rfl
  rcases exec_cases h with ⟨e, h0, he, rfl⟩ | ⟨h0, he, rfl⟩ | ⟨h0, hc, hw, rfl⟩ | ⟨h0, hc, rfl⟩
  · refine ⟨[], (List.append_nil _).symm, fun tr => ?_⟩
    rw [exec_eq_perform, hown, perform_err (s := { s with trace := tr }) h0 he, List.append_nil]
    rfl
  · refine ⟨evs, htrace, fun tr => ?_⟩
    rw [exec_eq_perform, hown, hperf, perform_done (s := { s with trace := tr }) h0 he]
  · refine ⟨evs, htrace, fun tr => ?_⟩
    rw [exec_eq_perform, hperf, perform_control (s := { s with trace := tr }) h0 hc hw]
  · refine ⟨[], (List.append_nil _).symm, fun tr => ?_⟩
    rw [exec_eq_perform, perform_discard (s := { t with trace := tr }) h0 hc, List.append_nil]

@[simp] theorem takeIllFormed_trace (e : DecodeError) (cmd : Command) (s : State) :
    (takeIllFormed e cmd s).trace = s.trace := by
  by_cases h0 : s.ecode = 0#4 <;> simp [takeIllFormed, h0]

@[simp] theorem takeIllFormed_outcnt (e : DecodeError) (cmd : Command) (s : State) :
    (takeIllFormed e cmd s).outcnt = s.outcnt := by
  by_cases h0 : s.ecode = 0#4 <;> simp [takeIllFormed, h0]

/-- A word that does not decode reads neither the trace nor the position. -/
theorem takeIllFormed_of_trace (e : DecodeError) (cmd : Command) (s : State) (tr : List Event) (p : Nat) :
    takeIllFormed e cmd { s with trace := tr, pos := p } = { takeIllFormed e cmd s with trace := tr, pos := p } := by
  by_cases h0 : s.ecode = 0#4 <;> simp [takeIllFormed, raiseErr, h0]

/-- What a word leads to depends on the registers alone: from every trace and position it adds the same events and
leaves the same registers (R36, R45, R54). -/
theorem exists_takes (cmd : Command) (s : State) : ∃ (t : State) (evs : List Event), t.trace = s.trace ++ evs ∧
    ∀ tr p, Takes cmd { s with trace := tr, pos := p } { t with trace := tr ++ evs } := by
  cases hd : decode cmd with
  | ok i =>
    obtain ⟨t, ht⟩ := exec_next i s
    obtain ⟨evs, htrace, hexec⟩ := exec_of_trace ht
    refine ⟨t, evs, htrace, fun tr p => ?_⟩
    exact takes_of_exec (s := { s with trace := tr, pos := p })
      (t := { t with
        trace := tr ++ evs, pos := p, outTaken := s.outTaken, respTaken := s.respTaken, port := s.port })
      hd (exec_ports (hexec tr) p s.outTaken s.respTaken s.port)
  | error e =>
    refine ⟨takeIllFormed e cmd s, [], by simp, fun tr p => ?_⟩
    have herr : Takes cmd { s with trace := tr, pos := p } (takeIllFormed e cmd { s with trace := tr, pos := p }) :=
      takes_of_error hd
    rw [takeIllFormed_of_trace] at herr
    rwa [List.append_nil]

/-! What a word taken emits -/

/-- A command other than CLEAR emits some bytes and adds their number to `outcnt` (R30). -/
theorem exec_outcnt {i : Instr} (hi : i ≠ .clear) {s t : State} (h : exec i s = .next t) :
    ∃ bs : List Byte, t.out = s.out ++ bs ∧ t.outcnt = s.outcnt + BitVec.ofNat 32 bs.length := by
  rcases exec_cases h with ⟨e, _, _, rfl⟩ | ⟨_, _, rfl⟩ | ⟨_, _, _, rfl⟩ | ⟨_, _, rfl⟩
  · exact ⟨[], by simp [State.out], by simp⟩
  · exact ⟨_, performed_out i s, performed_outcnt hi s⟩
  · exact ⟨_, performed_out i s, performed_outcnt hi s⟩
  · exact ⟨[], by simp [State.out], by simp⟩

/-- A word other than CLEAR's emits some bytes and adds their number to `outcnt` (R30). -/
theorem takeCommand_outcnt {cmd : Command} (hc : cmd ≠ mkCommand 0xFF#8 0#32) {s t : State}
    (h : takeCommand cmd s = .next t) :
    ∃ bs : List Byte, t.out = s.out ++ bs ∧ t.outcnt = s.outcnt + BitVec.ofNat 32 bs.length := by
  cases hd : decode cmd with
  | ok i =>
    have hi : i ≠ .clear := by
      rintro rfl
      exact hc (encode_of_decode hd).symm
    rw [takeCommand_ok hd] at h
    exact exec_outcnt (s := { s with pos := s.pos + 1 }) hi h
  | error e =>
    rw [takeCommand_error hd] at h
    cases h
    exact ⟨[], by simp [State.out], by simp⟩

/-! What the host has taken -/

/-- A step leaves both counts of what the host has taken, or adds 1 to one of them where something waits. -/
theorem step_taken {s t : State} (h : step s = .next t) :
    (t.outTaken = s.outTaken ∨ t.outTaken = s.outTaken + 1 ∧ s.outWaiting ≠ 0) ∧
    (t.respTaken = s.respTaken ∨ t.respTaken = s.respTaken + 1 ∧ s.respWaiting ≠ 0) := by
  rcases step_cases h with rfl | ⟨_, _, hw, rfl⟩ | ⟨_, _, hw, rfl⟩ | ⟨_, _, rfl⟩ | ⟨_, _, u, _, _, hu, rfl⟩ |
    ⟨_, _, _, _, hu⟩
  · exact ⟨.inl rfl, .inl rfl⟩
  · exact ⟨.inr ⟨rfl, hw⟩, .inl rfl⟩
  · exact ⟨.inl rfl, .inr ⟨rfl, hw⟩⟩
  · exact ⟨.inl rfl, .inl rfl⟩
  · obtain ⟨_, _, hout, hresp, _⟩ := takeCommand_keeps hu
    exact ⟨.inl hout, .inl hresp⟩
  · obtain ⟨_, _, hout, hresp, _⟩ := takeCommand_keeps hu
    exact ⟨.inl hout, .inl hresp⟩

/-- Where a step waits it waits for ever. -/
theorem runSteps_of_step_eq {s : State} (h : step s = .next s) (k : Nat) : runSteps k s = .next s := by
  induction k with
  | zero => rfl
  | succ k ih => rw [runSteps_succ k h, ih]

/-! The statements -/

/-- Settles O5: a ready port's word is taken, and a word that decodes runs its command. -/
theorem stepRunsTheDecodedCommand : Obligations.StepRunsTheDecodedCommand :=
  fun _ cmd _ rest hs hd => (step_offer_ready hs cmd rest).trans (takeCommand_ok hd _)

/-- Settles O7: every move is done or waits. -/
theorem everyStepAnswersANextState : Obligations.EveryStepAnswersANextState := step_next

/-- Settles O55: a stream has no room where something waits and at least its depth waits. -/
theorem portStallsExactlyWithoutRoom : Obligations.PortStallsExactlyWithoutRoom := by
  intro s
  rw [portStalled, Bool.or_eq_true, noRoom_iff, noRoom_iff, State.outWaiting, State.respWaiting, Nat.sub_ne_zero_iff_lt,
    Nat.sub_ne_zero_iff_lt]

/-- Settles O9: a word leads to one state, to which `Takes` adds whatever the host has drained. -/
theorem stallDelaysOnly : Obligations.StallDelaysOnly := by
  intro s cmd rest
  refine ⟨fun hs => step_offer_stalled hs cmd rest, fun a b a' b' t hs hs' h => ?_⟩
  obtain ⟨u, evs, _, htakes⟩ := exists_takes cmd s
  have hu : Takes cmd s { u with trace := s.trace ++ evs } := htakes s.trace s.pos
  cases h.symm.trans (hu a b rest hs)
  exact hu a' b' rest hs'

/-- Settles O29: the word adds the same events to either trace and leaves the same registers. -/
theorem commandsReadOnlyTheRegisters : Obligations.CommandsReadOnlyTheRegisters := by
  intro cmd s tr p a b rest rest' t hs hs' h
  obtain ⟨u, evs, _, htakes⟩ := exists_takes cmd s
  have hu : Takes cmd s { u with trace := s.trace ++ evs } := htakes s.trace s.pos
  cases h.symm.trans (hu.step hs rest)
  exact ⟨evs, rfl, htakes tr p a b rest' hs'⟩

/-- Settles O10: `clearRegs` is the reset column of R20, and both forms of reset and CLEAR apply it. -/
theorem resetLeavesEveryRegisterAtItsResetValue : Obligations.ResetLeavesEveryRegisterAtItsResetValue := by
  have hstatus : status State.reset = 0#32 := by decide +kernel
  refine ⟨step_rst, step_rstDuring_registersReset, fun s => ?_, fun _ => ⟨hstatus, rfl⟩, rfl⟩
  exact (exec_and_takes_control Laws.Encoding.clear rfl rfl s).2

/-- Settles O11: on a stalled port no event is added in either step; on a ready one the cut keeps a first part of what
the whole command adds. -/
theorem resetDuringACommandCutsOnlyItsOwnEvents : Obligations.ResetDuringACommandCutsOnlyItsOwnEvents := by
  intro s t u cmd rest ht hu
  cases hstall : portStalled s with
  | true =>
    cases ht.symm.trans (step_offer_stalled hstall cmd rest)
    cases hu.symm.trans (step_rstDuring_stalled hstall cmd rest)
    exact ⟨[], 0, by simp, by simp⟩
  | false =>
    rw [step_offer_ready hstall] at ht
    obtain ⟨⟨evs, htrace⟩, _⟩ := takeCommand_keeps ht
    have htrace : t.trace = s.trace ++ evs := htrace
    cases hu.symm.trans (step_rstDuring_ready hstall ht)
    exact ⟨evs, Config.resetCut s.pos, htrace, by rw [cutReset_trace, htrace, List.drop_left]⟩

/-- Settles O27: CLEAR's word resets `outcnt`; any other adds the number of its bytes. -/
theorem outcntCountsEmittedBytes : Obligations.OutcntCountsEmittedBytes := by
  intro s t cmd rest hs h
  rw [step_offer_ready hs] at h
  constructor
  · rintro rfl
    cases h.symm.trans (takeCommand_clear _)
    exact ⟨rfl, rfl⟩
  · intro hc
    obtain ⟨bs, hout, hcnt⟩ := takeCommand_outcnt hc h
    exact ⟨bs, hout, by simp [hcnt, BitVec.toNat_add]⟩

/-- Settles O56: in each of the three cases the step answers its own state. -/
theorem hostThatNeverDrainsWaitsForEver : Obligations.HostThatNeverDrainsWaitsForEver := by
  intro s cmd rest k
  refine ⟨fun hs => ?_, fun hout => ?_, fun hresp => ?_⟩
  · exact runSteps_of_step_eq (step_offer_stalled hs cmd rest) k
  · exact runSteps_of_step_eq ((step_takeOut s rest).trans (if_pos (Nat.sub_eq_zero_of_le hout))) k
  · exact runSteps_of_step_eq ((step_takeResp s rest).trans (if_pos (Nat.sub_eq_zero_of_le hresp))) k

/-- Settles O57: the host takes everything that waits, and a port where nothing waits is not stalled. -/
theorem drainingEndsEveryStall : Obligations.DrainingEndsEveryStall := by
  intro s rest
  refine ⟨s.outWaiting, s.respWaiting, _, runSteps_drain s _ _ (Nat.le_refl _) (Nat.le_refl _) rest, rfl, ?_⟩
  apply portStalled_drained
  · simp only [State.outWaiting, State.out]
    omega
  · simp only [State.respWaiting, State.resp]
    omega

/-- Settles O58: the streams only grow, and the host takes only what waits. -/
theorem hostTakesOnlyWhatWasProduced : Obligations.HostTakesOnlyWhatWasProduced := by
  intro s t hout hresp h
  obtain ⟨evs, htrace⟩ := step_trace h
  have houtGrows : s.out.length ≤ t.out.length := by simp [out_of_trace_append htrace]
  have hrespGrows : s.resp.length ≤ t.resp.length := by simp [resp_of_trace_append htrace]
  have htaken := step_taken h
  rw [State.outWaiting, State.respWaiting] at htaken
  omega

end Sys2Proof.Machine
end

section
/-! The table form of the CRC function (spec/41_crc.md R81), by the linearity of the loop of R80. -/

namespace Sys2Proof.Machine

/-- A word is its upper 24 bits and its low byte. -/
theorem high_xor_low (x : Word) : ((x >>> 8) <<< 8) ^^^ (x.extractLsb' 0 8).setWidth 32 = x := by
  apply BitVec.eq_of_getLsbD_eq
  intro k hk
  by_cases h : k < 8
  · simp [h, hk]
  · have hge : 8 + (k - 8) = k := by omega
    simp [h, hk, hge]

/-- Where the low byte is 0, eight turns only shift it out. -/
theorem crcBits_high (x : Word) : crcBits 8 ((x >>> 8) <<< 8) = x >>> 8 := by
  rw [crcBits_of_low_zero 8 _ fun k hk => by simp [hk]]
  apply BitVec.eq_of_getLsbD_eq
  intro k hk
  by_cases h : 8 + k < 32
  · simp [h]
  · simp [BitVec.getLsbD_of_ge x (8 + k) (by omega)]

/-- The byte absorbed does not reach the upper 24 bits. -/
theorem xor_byte_high (c : Word) (b : Byte) : (c ^^^ b.setWidth 32) >>> 8 = c >>> 8 := by
  apply BitVec.eq_of_getLsbD_eq
  intro k _
  simp

/-- Settles O45: by linearity the loop runs on the upper 24 bits, which it only shifts, and on the low byte apart. -/
theorem crcTableFormAgrees : Obligations.CrcTableFormAgrees := by
  refine ⟨fun c b => ?_, by decide +kernel, by decide +kernel, by decide +kernel, by decide +kernel⟩
  generalize hx : c ^^^ b.setWidth 32 = x
  calc crcByte c b = crcBits 8 x := by rw [crcByte, hx]
    _ = crcBits 8 (((x >>> 8) <<< 8) ^^^ (x.extractLsb' 0 8).setWidth 32) := by rw [high_xor_low]
    _ = (x >>> 8) ^^^ crcBits 8 ((x.extractLsb' 0 8).setWidth 32) := by rw [crcBits_xor, crcBits_high]
    _ = (c >>> 8) ^^^ crcByte 0#32 (x.extractLsb' 0 8) := by rw [← hx, xor_byte_high, hx, crcByte, BitVec.zero_xor]

end Sys2Proof.Machine
end

section
/-! Runs of commands (spec/41_crc.md R84, R86, spec/42_chunk.md R90 to R97, spec/43_serializer.md R112): the
commands that carry bytes and leave mode, length and tag alone do one thing, `advance`, and a run of them does it once
for all their bytes. The laws first, then the statements. -/

namespace Sys2Proof.Machine

/-! Commands that carry bytes -/

/-- The commands that leave mode, declared length and tag alone and raise no error of their own but OVERRUN: NOP,
RDREG of a register, and the commands that carry bytes. -/
def carrier : Instr → Bool
  | .serByte _ | .serBe32 _ | .crcByte _ | .crcWord _ => true
  | i => contentPhase i

/-- The bytes a carrier emits. -/
def emits (i : Instr) : List Byte := contentOf i ++ serializedBy i

/-- The bytes a carrier absorbs. -/
def absorbs (i : Instr) : List Byte := contentOf i ++ absorbedBy i

/-- `s` after `n` commands that added the events `evs`, absorbed `bs` and sent `k` content bytes. -/
def advance (evs : List Event) (bs : List Byte) (k n : Nat) (s : State) : State :=
  { s with
    trace := s.trace ++ evs, outcnt := s.outcnt + BitVec.ofNat 32 (outBytes evs).length, crc := crcFold s.crc bs,
    rem := s.rem - BitVec.ofNat 32 k, pos := s.pos + n }

/-- One stretch of commands after another is one stretch. -/
theorem advance_advance (evs evs' : List Event) (bs bs' : List Byte) (k k' n n' : Nat) (s : State) :
    advance evs' bs' k' n' (advance evs bs k n s) = advance (evs ++ evs') (bs ++ bs') (k + k') (n + n') s := by
  have hrem : s.rem - BitVec.ofNat 32 k - BitVec.ofNat 32 k' = s.rem - BitVec.ofNat 32 (k + k') := by
    rw [BitVec.ofNat_add, sub_sub]
  simp [advance, outBytes_append, crcFold_append, BitVec.ofNat_add, hrem, add_assoc]

/-- The events of a stretch of carriers: the bytes they emit in order, with only responses between them, and none of
these where no RDREG is among the commands. -/
def EventsOf (is : List Instr) (evs : List Event) : Prop :=
  outBytes evs = is.flatMap emits ∧ ((∀ i ∈ is, isRdreg i = false) → evs = (is.flatMap emits).map .out)

theorem eventsOf_cons {i : Instr} {is : List Instr} {evs evs' : List Event} (h : EventsOf [i] evs)
    (h' : EventsOf is evs') : EventsOf (i :: is) (evs ++ evs') := by
  obtain ⟨hout, hquiet⟩ := h
  obtain ⟨hout', hquiet'⟩ := h'
  refine ⟨by simp [outBytes_append, hout, hout'], fun hr => ?_⟩
  obtain ⟨hri, hris⟩ := List.forall_mem_cons.mp hr
  rw [hquiet (by simpa using hri), hquiet' hris]
  simp

/-- What a carrier does where it is performed. -/
theorem performed_carrier {i : Instr} (hi : carrier i = true) (s : State) :
    ∃ evs, EventsOf [i] evs ∧ performed i s = advance evs (absorbs i) (contentOf i).length 0 s := by
  cases i with
  | crcInit | crcEmit | chunkLen | chunkType | chunkEnd | clear => cases hi
  | rdreg n =>
    refine ⟨((readReg n s).map Event.resp).toList, ⟨?_, fun hr => ?_⟩, ?_⟩
    · cases readReg n s <;> rfl
    · exact absurd (hr _ List.mem_cons_self) (by simp [isRdreg])
    · cases h : readReg n s <;> simp [performed, advance, absorbs, contentOf, absorbedBy, crcFold, h, outBytes]
  | nop | crcByte | crcWord | chunkData | chunkData4 | serByte | serBe32 =>
    refine ⟨_, ⟨outBytes_map_out _, fun _ => rfl⟩, ?_⟩
    simp [performed, advance, emits, absorbs, contentOf, absorbedBy, serializedBy, outBytes, crcFold, be32]

/-! Runs of carriers -/

theorem carrier_wellFormed {i : Instr} (hi : carrier i = true) : i.wellFormed = true := by
  cases i with
  | rdreg n => exact hi
  | _ => rfl

/-- A carrier's own check is that its content bytes are due (R94, R95). -/
theorem ownError_carrier {i : Instr} (hi : carrier i = true) {s : State}
    (hr : (contentOf i).length ≤ s.rem.toNat) : ownError i s = none := by
  cases i with
  | crcInit | crcEmit | chunkLen | chunkType | chunkEnd | clear => cases hi
  | chunkData b => exact contentError_of_le (BitVec.le_def.mpr hr)
  | chunkData4 w => exact contentError_of_le (BitVec.le_def.mpr hr)
  | nop | crcByte | crcWord | serByte | serBe32 | rdreg => rfl

/-- A carrier that the mode check passes, with its content bytes due, is taken and advances the block. -/
theorem takes_carrier {i : Instr} (hi : carrier i = true) {s : State} (hs : s.ecode = 0#4)
    (hm : modeError i s.inchunk = none) (hr : (contentOf i).length ≤ s.rem.toNat) :
    ∃ evs, EventsOf [i] evs ∧ Takes (encode i) s (advance evs (absorbs i) (contentOf i).length 0 s) := by
  obtain ⟨evs, hevs, hperf⟩ := performed_carrier hi s
  obtain ⟨_, htakes⟩ :=
    exec_and_takes_admitted (encoding_statement i) (carrier_wellFormed hi) hs hm (ownError_carrier hi hr)
  exact ⟨evs, hevs, hperf ▸ htakes⟩

/-- A run of carriers advances the block by all their bytes. -/
theorem runsTo_carriers {is : List Instr} {s : State} (hs : s.ecode = 0#4)
    (hi : ∀ i ∈ is, carrier i = true ∧ modeError i s.inchunk = none)
    (hr : (is.flatMap contentOf).length ≤ s.rem.toNat) :
    ∃ evs, EventsOf is evs ∧
      RunsTo is s (advance evs (is.flatMap absorbs) (is.flatMap contentOf).length is.length s) := by
  induction is generalizing s with
  | nil =>
    have hzero : advance [] [] 0 0 s = s := by simp [advance, outBytes, crcFold]
    exact ⟨[], ⟨rfl, fun _ => rfl⟩, hzero.symm ▸ runsTo_nil s⟩
  | cons i is ih =>
    obtain ⟨⟨hc, hm⟩, his⟩ := List.forall_mem_cons.mp hi
    rw [List.flatMap_cons, List.length_append] at hr
    obtain ⟨evs, hevs, htakes⟩ := takes_carrier hc hs hm (by omega)
    have hdue : (advance evs (absorbs i) (contentOf i).length 1 s).rem.toNat =
        s.rem.toNat - (contentOf i).length := by
      simp only [advance]
      bv_omega
    obtain ⟨evs', hevs', hrun⟩ := ih (s := advance evs (absorbs i) (contentOf i).length 1 s) hs his (by omega)
    refine ⟨evs ++ evs', eventsOf_cons hevs hevs', runsTo_cons htakes ?_⟩
    rw [advance_advance] at hrun
    rw [List.flatMap_cons, List.flatMap_cons, List.length_append, List.length_cons, Nat.add_comm is.length]
    exact hrun

/-- A run of carriers without RDREG adds exactly the bytes it emits. -/
theorem runsTo_carriers_noRdreg {is : List Instr} {s : State} (hs : s.ecode = 0#4)
    (hi : ∀ i ∈ is, carrier i = true ∧ modeError i s.inchunk = none)
    (hr : (is.flatMap contentOf).length ≤ s.rem.toNat) (hno : ∀ i ∈ is, isRdreg i = false) :
    RunsTo is s
      (advance ((is.flatMap emits).map .out) (is.flatMap absorbs) (is.flatMap contentOf).length is.length s) := by
  obtain ⟨evs, ⟨_, hevs⟩, hrun⟩ := runsTo_carriers hs hi hr
  rwa [hevs hno] at hrun

/-! The statements on short sequences -/

/-- Settles O48: in each family the word command and the four byte commands carry the same bytes, and a run of carriers
depends on nothing else. -/
theorem wordCommandsEqualFourByteCommands : Obligations.WordCommandsEqualFourByteCommands := by
  intro s w one four hs hfamily
  have hrun (is : List Instr) := runsTo_carriers_noRdreg (is := is) hs
  rcases hfamily with ⟨rfl, rfl, hm⟩ | ⟨rfl, rfl, hm⟩ | ⟨rfl, rfl, hm, hrem⟩
  · refine ⟨advance [] (be32 w) 0 0 s, hrun [_] ?_ ?_ ?_, hrun [_, _, _, _] ?_ ?_ ?_, hs⟩ <;>
      simp [carrier, isRdreg, contentOf, modeError, admittedIn, hm]
  · refine ⟨advance ((be32 w).map .out) [] 0 0 s, hrun [_] ?_ ?_ ?_, hrun [_, _, _, _] ?_ ?_ ?_, hs⟩ <;>
      simp [carrier, isRdreg, contentOf, modeError, admittedIn, hm]
  · have hdue : 4 ≤ s.rem.toNat := BitVec.le_def.mp hrem
    refine ⟨advance ((be32 w).map .out) (be32 w) 4 0 s, hrun [_] ?_ ?_ ?_, hrun [_, _, _, _] ?_ ?_ ?_, hs⟩ <;>
      simp [carrier, contentPhase, isRdreg, contentOf, modeError, admittedIn, hm, hdue]

/-- Settles O49: the value read does not depend on the trace, so the second RDREG reads it again. -/
theorem repeatedRdregReturnsTheSameWord : Obligations.RepeatedRdregReturnsTheSameWord := by
  intro s n hn
  obtain ⟨v, hv⟩ : ∃ v, readReg n s = some v := by
    rw [← Option.isSome_iff_exists, readReg_isSome]
    exact decide_eq_true hn
  have hagain : readReg n { respond v s with pos := s.pos + 1 } = some v := hv
  refine ⟨v, ?_⟩
  have hrun := runsTo_cons (i := .rdreg n) (takes_rdreg hv) (runsTo_one (i := .rdreg n) (takes_rdreg hagain))
  simpa [respond] using hrun

/-! The standalone CRC -/

/-- A CRC command is a carrier that idle mode passes. -/
theorem carrier_of_crcPhase {i : Instr} (h : crcPhase i = true) :
    carrier i = true ∧ modeError i false = none ∧ isRdreg i = false := by
  cases i with
  | crcByte | crcWord => exact ⟨rfl, rfl, rfl⟩
  | _ => cases h

/-- A CRC command carries no content, emits nothing and absorbs its bytes. -/
theorem carried_of_crcPhase {i : Instr} (h : crcPhase i = true) :
    contentOf i = [] ∧ emits i = [] ∧ absorbs i = absorbedBy i := by
  cases i with
  | crcByte | crcWord => exact ⟨rfl, rfl, rfl⟩
  | _ => cases h

/-- CRC commands absorb their bytes and do nothing else (R83, R84). -/
theorem runsTo_crcPhase {cs : List Instr} {s : State} (hs : s.ecode = 0#4) (hm : s.inchunk = false)
    (hcs : ∀ i ∈ cs, crcPhase i = true) : RunsTo cs s (advance [] (cs.flatMap absorbedBy) 0 cs.length s) := by
  have hcontent : cs.flatMap contentOf = [] :=
    List.flatMap_eq_nil_iff.mpr fun i hi => (carried_of_crcPhase (hcs i hi)).1
  have hemits : cs.flatMap emits = [] :=
    List.flatMap_eq_nil_iff.mpr fun i hi => (carried_of_crcPhase (hcs i hi)).2.1
  have habsorbs : cs.flatMap absorbs = cs.flatMap absorbedBy :=
    List.flatMap_congr fun i hi => (carried_of_crcPhase (hcs i hi)).2.2
  have hcarrier : ∀ i ∈ cs, carrier i = true ∧ modeError i s.inchunk = none := fun i hi => by
    obtain ⟨hc, hmode, _⟩ := carrier_of_crcPhase (hcs i hi)
    exact ⟨hc, hm ▸ hmode⟩
  have hrun := runsTo_carriers_noRdreg hs hcarrier (by simp [hcontent])
    fun i hi => (carrier_of_crcPhase (hcs i hi)).2.2
  rwa [hcontent, hemits, habsorbs] at hrun

theorem crcFinal_crcFinal (c : Word) : crcFinal (crcFinal c) = c := by
  simp [crcFinal]

/-- Settles O50: the register restarts, absorbs the bytes, and its final CRC is emitted. -/
theorem standaloneCrcEmitsTheCrcOfTheBytes : Obligations.StandaloneCrcEmitsTheCrcOfTheBytes := by
  intro s cs hs hm hcs bytes
  let restarted : State := { s with crc := 0xFFFFFFFF#32, pos := s.pos + 1 }
  let absorbed : State := advance [] bytes 0 cs.length restarted
  have hinit : RunsTo [.crcInit] s restarted :=
    runsTo_one (exec_and_takes_idleOnly Laws.Encoding.crcInit rfl rfl hs hm rfl).2
  have habsorb : RunsTo cs restarted absorbed := runsTo_crcPhase hs hm hcs
  have hemit : RunsTo [.crcEmit] absorbed { performed .crcEmit absorbed with pos := absorbed.pos + 1 } :=
    runsTo_one (exec_and_takes_idleOnly (s := absorbed) Laws.Encoding.crcEmit rfl rfl hs hm rfl).2
  have hcrc : crcFold 0xFFFFFFFF#32 bytes = crc32 bytes ^^^ 0xFFFFFFFF#32 := (crcFinal_crcFinal _).symm
  have hfinal : crcFinal absorbed.crc = crc32 bytes := rfl
  have hrun := runsTo_append (runsTo_append hinit habsorb) hemit
  simp only [performed, hfinal] at hrun
  have hpos : s.pos + 1 + cs.length + 1 = s.pos + cs.length + 2 := by omega
  simpa [absorbed, restarted, advance, outBytes, hcrc, hpos] using hrun

/-! A framed chunk -/

/-- What may stand between the commands of a chunk may stand among its content. -/
theorem contentPhase_of_quiet {i : Instr} (h : quiet i = true) : contentPhase i = true := by
  cases i with
  | nop | rdreg => exact h
  | _ => cases h

/-- NOP and RDREG are passed in both modes and carry nothing. -/
theorem modeError_of_quiet {i : Instr} (h : quiet i = true) (m : Bool) : modeError i m = none := by
  cases i with
  | nop | rdreg => cases m <;> rfl
  | _ => cases h

theorem contentOf_of_quiet {i : Instr} (h : quiet i = true) : contentOf i = [] := by
  cases i with
  | nop | rdreg => rfl
  | _ => cases h

/-- What may stand among the content of a chunk is a carrier that chunk mode passes. -/
theorem carrier_of_contentPhase {i : Instr} (h : contentPhase i = true) :
    carrier i = true ∧ modeError i true = none := by
  cases i with
  | chunkData | chunkData4 => exact ⟨rfl, rfl⟩
  | nop | rdreg => exact ⟨h, rfl⟩
  | _ => cases h

/-- What may stand among the content of a chunk emits and absorbs its content bytes. -/
theorem carried_of_contentPhase {i : Instr} (h : contentPhase i = true) :
    emits i = contentOf i ∧ absorbs i = contentOf i := by
  cases i with
  | chunkData | chunkData4 | nop | rdreg => exact ⟨rfl, rfl⟩
  | _ => cases h

/-- Content commands emit, absorb and count their content bytes, with only responses between (R94, R95). -/
theorem runsTo_contentPhase {cs : List Instr} {s : State} (hs : s.ecode = 0#4)
    (hcs : ∀ i ∈ cs, contentPhase i = true ∧ modeError i s.inchunk = none)
    (hr : (cs.flatMap contentOf).length ≤ s.rem.toNat) :
    ∃ evs, outBytes evs = cs.flatMap contentOf ∧ ((∀ i ∈ cs, isRdreg i = false) → respWords evs = []) ∧
      RunsTo cs s (advance evs (cs.flatMap contentOf) (cs.flatMap contentOf).length cs.length s) := by
  have hemits : cs.flatMap emits = cs.flatMap contentOf :=
    List.flatMap_congr fun i hi => (carried_of_contentPhase (hcs i hi).1).1
  have habsorbs : cs.flatMap absorbs = cs.flatMap contentOf :=
    List.flatMap_congr fun i hi => (carried_of_contentPhase (hcs i hi).1).2
  obtain ⟨evs, ⟨hout, hno⟩, hrun⟩ :=
    runsTo_carriers hs (fun i hi => ⟨(carrier_of_contentPhase (hcs i hi).1).1, (hcs i hi).2⟩) hr
  rw [habsorbs] at hrun
  exact ⟨evs, hout.trans hemits, fun hr => hno hr ▸ respWords_map_out _, hrun⟩

@[simp] theorem advance_out (evs : List Event) (bs : List Byte) (k n : Nat) (s : State) :
    (advance evs bs k n s).out = s.out ++ outBytes evs := out_of_trace_append rfl

@[simp] theorem advance_resp (evs : List Event) (bs : List Byte) (k n : Nat) (s : State) :
    (advance evs bs k n s).resp = s.resp ++ respWords evs := resp_of_trace_append rfl

/-- No command but RDREG responds (R42). -/
theorem performed_resp {i : Instr} (hi : isRdreg i = false) (s : State) : (performed i s).resp = s.resp := by
  by_contra h
  obtain ⟨n, v, rfl, _⟩ := rdreg_of_performed_resp_ne h
  cases hi

/-- The head of a chunk: CHUNK.LEN declares the length, and only responses follow (R91, R97). -/
theorem runsTo_declare {s : State} {w : Word} {q : List Instr} (hs : s.ecode = 0#4) (hm : s.inchunk = false)
    (hw : w ≤ 0x7FFFFFFF#32) (hq : ∀ i ∈ q, quiet i = true) :
    ∃ u, RunsTo (.chunkLen w :: q) s u ∧ u.out = s.out ∧ u.ecode = 0#4 ∧ u.inchunk = false ∧ u.lv = true ∧ u.len = w ∧
      ((∀ i ∈ q, isRdreg i = false) → u.resp = s.resp) := by
  have hcontent : q.flatMap contentOf = [] := List.flatMap_eq_nil_iff.mpr fun i hi => contentOf_of_quiet (hq i hi)
  have htakes : Takes (encode (.chunkLen w)) s (performed (.chunkLen w) s) :=
    (exec_and_takes_idleOnly (Laws.Encoding.chunkLen w) rfl rfl hs hm (chunkLenError_of_le hw)).2
  obtain ⟨evs, hout, hresp, hrun⟩ :=
    runsTo_contentPhase (s := { performed (.chunkLen w) s with pos := s.pos + 1 }) (cs := q) hs
      (fun i hi => ⟨contentPhase_of_quiet (hq i hi), modeError_of_quiet (hq i hi) _⟩) (by simp [hcontent])
  rw [hcontent] at hout
  refine ⟨_, runsTo_cons htakes hrun, ?_, hs, hm, rfl, rfl, fun hno => ?_⟩
  · rw [advance_out, hout, List.append_nil]
    rfl
  · rw [advance_resp, hresp hno, List.append_nil]
    rfl

/-- The body of a chunk: CHUNK.TYPE emits length and tag, and the content commands the declared number of bytes (R92,
R94, R95). -/
theorem runsTo_body {s : State} {t : Word} {cs : List Instr} (hs : s.ecode = 0#4) (hm : s.inchunk = false)
    (hlv : s.lv = true) (ht : LetterTag t) (hcs : ∀ i ∈ cs, contentPhase i = true)
    (hlen : (cs.flatMap contentOf).length = s.len.toNat) :
    ∃ u, RunsTo (.chunkType t :: cs) s u ∧ u.out = s.out ++ (be32 s.len ++ be32 t ++ cs.flatMap contentOf) ∧
      u.ecode = 0#4 ∧ u.inchunk = true ∧ u.lv = false ∧ u.len = s.len ∧ u.rem = 0#32 ∧ u.type = t ∧
      u.crc = crcFold 0xFFFFFFFF#32 (be32 t ++ cs.flatMap contentOf) ∧
      ((∀ i ∈ cs, isRdreg i = false) → u.resp = s.resp) := by
  have htakes : Takes (encode (.chunkType t)) s (performed (.chunkType t) s) :=
    (exec_and_takes_idleOnly (Laws.Encoding.chunkType t) rfl rfl hs hm (chunkTypeError_of_letterTag hlv ht)).2
  obtain ⟨evs, hout, hresp, hrun⟩ :=
    runsTo_contentPhase (s := { performed (.chunkType t) s with pos := s.pos + 1 }) (cs := cs) hs
      (fun i hi => ⟨hcs i hi, (carrier_of_contentPhase (hcs i hi)).2⟩) hlen.le
  refine ⟨_, runsTo_cons htakes hrun, ?_, hs, rfl, rfl, rfl, ?_, rfl, (crcFold_append _ _ _).symm, fun hno => ?_⟩
  · have hopen : State.out { performed (.chunkType t) s with pos := s.pos + 1 } = s.out ++ (be32 s.len ++ be32 t) :=
      performed_out (.chunkType t) s
    rw [advance_out, hout, hopen, List.append_assoc]
  · have hdue : BitVec.ofNat 32 (cs.flatMap contentOf).length = s.len := by
      rw [hlen, BitVec.ofNat_toNat, BitVec.setWidth_eq]
    rw [advance, hdue]
    exact BitVec.sub_self s.len
  · rw [advance_resp, hresp hno, List.append_nil]
    exact performed_resp rfl s

/-- Settles O51: the head, the body and CHUNK.END, which emits the final CRC of the register the body leaves. -/
theorem framedChunkIsExactlyItsLayout : Obligations.FramedChunkIsExactlyItsLayout := by
  intro s w t q cs hs hm hw ht hq hcs content hlen
  obtain ⟨u, hhead, hout, hs, hm, hlv, rfl, hresp⟩ := runsTo_declare hs hm hw hq
  obtain ⟨v, hbody, hout', hs', hm', hlv', hlen', hrem', htype', hcrc', hresp'⟩ := runsTo_body hs hm hlv ht hcs hlen
  have hend : RunsTo [.chunkEnd] v { performed .chunkEnd v with pos := v.pos + 1 } :=
    runsTo_one (exec_and_takes_admitted Laws.Encoding.chunkEnd rfl hs' (modeError_chunkOnly rfl hm')
      (chunkEndError_of_eq hrem')).2
  have hcrc : crcFinal v.crc = crc32 (be32 t ++ content) := by
    rw [hcrc']
    rfl
  have hlayout : chunkLayout t content = be32 u.len ++ be32 t ++ content ++ be32 (crc32 (be32 t ++ content)) := by
    rw [chunkLayout, hlen, BitVec.ofNat_toNat, BitVec.setWidth_eq]
  refine ⟨_, runsTo_append (runsTo_append hhead hbody) hend, ?_, hlayout, ?_, hs', rfl, hrem', hlv', hlen', htype', ?_,
    fun hno => ?_⟩
  · have hclose : State.out { performed .chunkEnd v with pos := v.pos + 1 } = v.out ++ be32 (crcFinal v.crc) :=
      performed_out .chunkEnd v
    rw [hclose, hout', hout, hcrc, List.append_assoc]
  · simp only [hlayout, List.length_append, be32_length]
    omega
  · rw [← hcrc]
    exact (crcFinal_crcFinal v.crc).symm
  · obtain ⟨hnoq, hnocs⟩ := List.forall_mem_append.mp hno
    exact (performed_resp rfl v).trans ((hresp' hnocs).trans (hresp hnoq))

end Sys2Proof.Machine
end
